-- ==== Sys2Proof/Word.lean ====
section
/-! DEFINITION. The word types of the kasm engine: cells, bytes, instruction words, tokens, the four operation
widths (spec/00_scope.md R7, R8) and the closed set of register identifiers (spec/10_state.md R21). -/

namespace Sys2Proof

/-- One 64-bit register cell (`XLEN`, 00_scope.md R6), also the program counter and the instruction counter. -/
abbrev Word := BitVec 64

/-- One byte of the stack buffer (10_state.md R37). -/
abbrev Byte := BitVec 8

/-- The 80-bit binary form of an instruction (30_encoding.md R105). -/
abbrev InstrWord := BitVec 80

/-- A token of an instruction line (30_encoding.md R92); also the opaque message of an I/O fault (46_print.md R250). -/
abbrev Token := List Char

/-- The four operation widths (00_scope.md R8). -/
inductive Width where
  | byte | quarter | half | word
deriving DecidableEq, Repr

/-- The width in bits: Byte 8, Quarter 16, Half 32, Word 64 (00_scope.md R8, decision D3). -/
@[reducible] def Width.bits : Width → Nat
  | .byte => 8
  | .quarter => 16
  | .half => 32
  | .word => 64

/-- `NB_W`, the number of bytes of a width (00_scope.md R8). -/
def Width.bytes : Width → Nat
  | .byte => 1
  | .quarter => 2
  | .half => 4
  | .word => 8

/-- `MAX_W` = 2^W - 1 (00_scope.md R8), of a width given in bits. -/
def maxOfBits (bits : Nat) : Nat := 2 ^ bits - 1

/-- `MAX_W` of a width tag (00_scope.md R8). -/
def Width.maxVal (w : Width) : Nat := maxOfBits w.bits

/-- The closed set of register identifiers (10_state.md R21, decision D1). -/
inductive Reg where
  | r0 | r1 | r2 | r3 | r4 | r5 | r6 | r7 | r8 | r9 | r10 | r11 | r12 | r13 | r14 | r15 | sp
deriving DecidableEq, Repr

end Sys2Proof
end

