-- ==== Sys2Proof/Config.lean ====
section
/-! DEFINITION. What is fixed for a run: the parameters of spec/00_scope.md R6, carried as plain data so that every
statement over states is a statement over every value of them, and the two free values the spec leaves open
(STACK_INIT, and the output collaborator's answers), which nothing constrains. -/

namespace Sys2Proof

/-- The output collaborator's answer to one emission (46_print.md R250). -/
inductive SinkAnswer where
  | ok
  | ioFault (msg : Token)
deriving DecidableEq, Repr, Inhabited

/-- One instruction of the program as the loader delivers it: the token sequence of the line, or its 80-bit word
(20_memory.md R66). DESIGN CHOICE, safe: one program may mix the two (log entry 7). -/
inductive Line where
  | text (tokens : List Token)
  | word (bits : InstrWord)
deriving DecidableEq, Repr

/-- The parameters of a run (00_scope.md R6), fixed before reset and constant for the run (70_reset_and_hazards.md
R302): `STACK_CAP`, `REPORT_COUNT` and the program, whose length is `PROG_LEN` (20_memory.md R66). -/
structure Config where
  stackCap : Nat
  reportCount : Bool
  prog : List Line
deriving DecidableEq, Repr

/-- The bounds of 00_scope.md R6 and 10_state.md R28: `PROG_LEN <= 2^64 - 1`, and (DEDUCED, safe, log entry 12) a
capacity that a 64-bit stack pointer can hold. -/
abbrev Config.wf (c : Config) : Prop := c.prog.length < 2 ^ 64 ∧ c.stackCap < 2 ^ 64

/-- The configuration `State.reset` starts from: the default capacity of 00_scope.md R6 (4 MiB, decision D30), no
program and no count report (DESIGN CHOICE, unsafe for claims about `State.reset` alone, log entry 2). -/
def Config.default : Config := { stackCap := 4194304, reportCount := false, prog := [] }

/-- `STACK_INIT` (10_state.md R37, decision D20): the byte at an offset never written since reset. Free: no body, so
nothing can be proved of its value (log entry 3). -/
opaque Config.stackInit : Nat → Byte

/-- The output collaborator's answer to the k-th emission of the run, where the environment has fixed none in
`State.answers` (46_print.md R250: it "may answer `io_fault` to any emission"). Free: no body (log entry 4). -/
opaque Config.sinkAnswer : Nat → SinkAnswer

end Sys2Proof
end

