-- ==== Sys2Proof/Syntax.lean ====
section
/-! DEFINITION. The instruction set: one constructor for each of the 113 rows of spec/opcode_table.json (30_encoding.md
R93, R114), in the table's order. A width-carrying constructor names its width (`Byte`, `Quarter`, `Half`, `Word`); a
final `R` is the register form of the operand (formats ROR, OR), a final `I` its immediate form (formats ROI, OI). An
immediate is the whole `imm` field of the word (R105); that it fits the width is checked in WellFormed.lean. -/

namespace Sys2Proof

/-- The abstract instructions of 30_encoding.md R90, one constructor per mnemonic and binary format (R114). -/
inductive Instr where
  -- `stop` (R223)
  | stop
  -- `set` (R170)
  | setByteR (rd : Reg) (rs : Reg)
  | setByteI (rd : Reg) (imm : Word)
  | setQuarterR (rd : Reg) (rs : Reg)
  | setQuarterI (rd : Reg) (imm : Word)
  | setHalfR (rd : Reg) (rs : Reg)
  | setHalfI (rd : Reg) (imm : Word)
  | setWordR (rd : Reg) (rs : Reg)
  | setWordI (rd : Reg) (imm : Word)
  -- `add` (R181)
  | addByteR (rd : Reg) (rs : Reg)
  | addByteI (rd : Reg) (imm : Word)
  | addQuarterR (rd : Reg) (rs : Reg)
  | addQuarterI (rd : Reg) (imm : Word)
  | addHalfR (rd : Reg) (rs : Reg)
  | addHalfI (rd : Reg) (imm : Word)
  | addWordR (rd : Reg) (rs : Reg)
  | addWordI (rd : Reg) (imm : Word)
  -- `sub` (R182)
  | subByteR (rd : Reg) (rs : Reg)
  | subByteI (rd : Reg) (imm : Word)
  | subQuarterR (rd : Reg) (rs : Reg)
  | subQuarterI (rd : Reg) (imm : Word)
  | subHalfR (rd : Reg) (rs : Reg)
  | subHalfI (rd : Reg) (imm : Word)
  | subWordR (rd : Reg) (rs : Reg)
  | subWordI (rd : Reg) (imm : Word)
  -- `mul` (R183)
  | mulByteR (rd : Reg) (rs : Reg)
  | mulByteI (rd : Reg) (imm : Word)
  | mulQuarterR (rd : Reg) (rs : Reg)
  | mulQuarterI (rd : Reg) (imm : Word)
  | mulHalfR (rd : Reg) (rs : Reg)
  | mulHalfI (rd : Reg) (imm : Word)
  | mulWordR (rd : Reg) (rs : Reg)
  | mulWordI (rd : Reg) (imm : Word)
  -- `div` (R184)
  | divByteR (rd : Reg) (rs : Reg)
  | divByteI (rd : Reg) (imm : Word)
  | divQuarterR (rd : Reg) (rs : Reg)
  | divQuarterI (rd : Reg) (imm : Word)
  | divHalfR (rd : Reg) (rs : Reg)
  | divHalfI (rd : Reg) (imm : Word)
  | divWordR (rd : Reg) (rs : Reg)
  | divWordI (rd : Reg) (imm : Word)
  -- `rem` (R185)
  | remByteR (rd : Reg) (rs : Reg)
  | remByteI (rd : Reg) (imm : Word)
  | remQuarterR (rd : Reg) (rs : Reg)
  | remQuarterI (rd : Reg) (imm : Word)
  | remHalfR (rd : Reg) (rs : Reg)
  | remHalfI (rd : Reg) (imm : Word)
  | remWordR (rd : Reg) (rs : Reg)
  | remWordI (rd : Reg) (imm : Word)
  -- `push` (R240)
  | pushByte (rd : Reg)
  | pushQuarter (rd : Reg)
  | pushHalf (rd : Reg)
  | pushWord (rd : Reg)
  -- `pop` (R241)
  | popByte (rd : Reg)
  | popQuarter (rd : Reg)
  | popHalf (rd : Reg)
  | popWord (rd : Reg)
  -- `call` (R221)
  | callR (rs : Reg)
  | callI (imm : Word)
  -- `return` (R222)
  | ret
  -- `and` (R201)
  | andByteR (rd : Reg) (rs : Reg)
  | andByteI (rd : Reg) (imm : Word)
  | andQuarterR (rd : Reg) (rs : Reg)
  | andQuarterI (rd : Reg) (imm : Word)
  | andHalfR (rd : Reg) (rs : Reg)
  | andHalfI (rd : Reg) (imm : Word)
  | andWordR (rd : Reg) (rs : Reg)
  | andWordI (rd : Reg) (imm : Word)
  -- `or` (R202)
  | orByteR (rd : Reg) (rs : Reg)
  | orByteI (rd : Reg) (imm : Word)
  | orQuarterR (rd : Reg) (rs : Reg)
  | orQuarterI (rd : Reg) (imm : Word)
  | orHalfR (rd : Reg) (rs : Reg)
  | orHalfI (rd : Reg) (imm : Word)
  | orWordR (rd : Reg) (rs : Reg)
  | orWordI (rd : Reg) (imm : Word)
  -- `xor` (R203)
  | xorByteR (rd : Reg) (rs : Reg)
  | xorByteI (rd : Reg) (imm : Word)
  | xorQuarterR (rd : Reg) (rs : Reg)
  | xorQuarterI (rd : Reg) (imm : Word)
  | xorHalfR (rd : Reg) (rs : Reg)
  | xorHalfI (rd : Reg) (imm : Word)
  | xorWordR (rd : Reg) (rs : Reg)
  | xorWordI (rd : Reg) (imm : Word)
  -- `not` (R204)
  | notByte (rd : Reg)
  | notQuarter (rd : Reg)
  | notHalf (rd : Reg)
  | notWord (rd : Reg)
  -- `test` (R205)
  | testByteR (rd : Reg) (rs : Reg)
  | testByteI (rd : Reg) (imm : Word)
  | testQuarterR (rd : Reg) (rs : Reg)
  | testQuarterI (rd : Reg) (imm : Word)
  | testHalfR (rd : Reg) (rs : Reg)
  | testHalfI (rd : Reg) (imm : Word)
  | testWordR (rd : Reg) (rs : Reg)
  | testWordI (rd : Reg) (imm : Word)
  -- `compare` (R206)
  | compareByteR (rd : Reg) (rs : Reg)
  | compareByteI (rd : Reg) (imm : Word)
  | compareQuarterR (rd : Reg) (rs : Reg)
  | compareQuarterI (rd : Reg) (imm : Word)
  | compareHalfR (rd : Reg) (rs : Reg)
  | compareHalfI (rd : Reg) (imm : Word)
  | compareWordR (rd : Reg) (rs : Reg)
  | compareWordI (rd : Reg) (imm : Word)
  -- `jump` (R220)
  | jumpR (rs : Reg)
  | jumpI (imm : Word)
  -- `print-register` (R251)
  | printRegister (rd : Reg)
  -- `print-stack` (R252)
  | printStackR (rs : Reg)
  | printStackI (imm : Word)
  -- `set-indirect` (R171)
  | setIndirectByte (ri : Reg) (rv : Reg)
  | setIndirectQuarter (ri : Reg) (rv : Reg)
  | setIndirectHalf (ri : Reg) (rv : Reg)
  | setIndirectWord (ri : Reg) (rv : Reg)
deriving DecidableEq, Repr

end Sys2Proof
end

