-- ==== Sys2Proof/WellFormed.lean ====
section
/-! DEFINITION. Well-formed instructions: what the constructors of `Instr` leave open and 30_encoding.md requires. A
register field is closed by its type (R94); the one check is that a literal is at most `MAX_W` of the instruction's
width (R90, R96, R108: "out-of-range literals are decode errors, not wrapped"). -/

namespace Sys2Proof

/-- A literal fits the width W: `v <= MAX_W` (30_encoding.md R96, R108). -/
def immFits (w : Width) (v : Word) : Bool := decide (v.toNat ≤ w.maxVal)

/-- Well-formedness, form by form (30_encoding.md R90, R107). -/
def Instr.wf : Instr → Bool
  | .stop => true
  | .setByteR _ _ => true
  | .setByteI _ imm => immFits .byte imm
  | .setQuarterR _ _ => true
  | .setQuarterI _ imm => immFits .quarter imm
  | .setHalfR _ _ => true
  | .setHalfI _ imm => immFits .half imm
  | .setWordR _ _ => true
  | .setWordI _ imm => immFits .word imm
  | .addByteR _ _ => true
  | .addByteI _ imm => immFits .byte imm
  | .addQuarterR _ _ => true
  | .addQuarterI _ imm => immFits .quarter imm
  | .addHalfR _ _ => true
  | .addHalfI _ imm => immFits .half imm
  | .addWordR _ _ => true
  | .addWordI _ imm => immFits .word imm
  | .subByteR _ _ => true
  | .subByteI _ imm => immFits .byte imm
  | .subQuarterR _ _ => true
  | .subQuarterI _ imm => immFits .quarter imm
  | .subHalfR _ _ => true
  | .subHalfI _ imm => immFits .half imm
  | .subWordR _ _ => true
  | .subWordI _ imm => immFits .word imm
  | .mulByteR _ _ => true
  | .mulByteI _ imm => immFits .byte imm
  | .mulQuarterR _ _ => true
  | .mulQuarterI _ imm => immFits .quarter imm
  | .mulHalfR _ _ => true
  | .mulHalfI _ imm => immFits .half imm
  | .mulWordR _ _ => true
  | .mulWordI _ imm => immFits .word imm
  | .divByteR _ _ => true
  | .divByteI _ imm => immFits .byte imm
  | .divQuarterR _ _ => true
  | .divQuarterI _ imm => immFits .quarter imm
  | .divHalfR _ _ => true
  | .divHalfI _ imm => immFits .half imm
  | .divWordR _ _ => true
  | .divWordI _ imm => immFits .word imm
  | .remByteR _ _ => true
  | .remByteI _ imm => immFits .byte imm
  | .remQuarterR _ _ => true
  | .remQuarterI _ imm => immFits .quarter imm
  | .remHalfR _ _ => true
  | .remHalfI _ imm => immFits .half imm
  | .remWordR _ _ => true
  | .remWordI _ imm => immFits .word imm
  | .pushByte _ => true
  | .pushQuarter _ => true
  | .pushHalf _ => true
  | .pushWord _ => true
  | .popByte _ => true
  | .popQuarter _ => true
  | .popHalf _ => true
  | .popWord _ => true
  | .callR _ => true
  | .callI imm => immFits .word imm
  | .ret => true
  | .andByteR _ _ => true
  | .andByteI _ imm => immFits .byte imm
  | .andQuarterR _ _ => true
  | .andQuarterI _ imm => immFits .quarter imm
  | .andHalfR _ _ => true
  | .andHalfI _ imm => immFits .half imm
  | .andWordR _ _ => true
  | .andWordI _ imm => immFits .word imm
  | .orByteR _ _ => true
  | .orByteI _ imm => immFits .byte imm
  | .orQuarterR _ _ => true
  | .orQuarterI _ imm => immFits .quarter imm
  | .orHalfR _ _ => true
  | .orHalfI _ imm => immFits .half imm
  | .orWordR _ _ => true
  | .orWordI _ imm => immFits .word imm
  | .xorByteR _ _ => true
  | .xorByteI _ imm => immFits .byte imm
  | .xorQuarterR _ _ => true
  | .xorQuarterI _ imm => immFits .quarter imm
  | .xorHalfR _ _ => true
  | .xorHalfI _ imm => immFits .half imm
  | .xorWordR _ _ => true
  | .xorWordI _ imm => immFits .word imm
  | .notByte _ => true
  | .notQuarter _ => true
  | .notHalf _ => true
  | .notWord _ => true
  | .testByteR _ _ => true
  | .testByteI _ imm => immFits .byte imm
  | .testQuarterR _ _ => true
  | .testQuarterI _ imm => immFits .quarter imm
  | .testHalfR _ _ => true
  | .testHalfI _ imm => immFits .half imm
  | .testWordR _ _ => true
  | .testWordI _ imm => immFits .word imm
  | .compareByteR _ _ => true
  | .compareByteI _ imm => immFits .byte imm
  | .compareQuarterR _ _ => true
  | .compareQuarterI _ imm => immFits .quarter imm
  | .compareHalfR _ _ => true
  | .compareHalfI _ imm => immFits .half imm
  | .compareWordR _ _ => true
  | .compareWordI _ imm => immFits .word imm
  | .jumpR _ => true
  | .jumpI imm => immFits .word imm
  | .printRegister _ => true
  | .printStackR _ => true
  | .printStackI imm => immFits .word imm
  | .setIndirectByte _ _ => true
  | .setIndirectQuarter _ _ => true
  | .setIndirectHalf _ _ => true
  | .setIndirectWord _ _ => true

end Sys2Proof
end

