-- ==== Sys2Proof/Decode.lean ====
section
/-! DEFINITION. The abstract instruction (30_encoding.md R90, R91), the 80-bit instruction word (R105 to R108), its
decoder (R109, R110), which is total and names every rejection, and the encoder written from the same field table. -/

namespace Sys2Proof

/-! ### Registers and width codes -/

/-- The array index of a register identifier: `r<n>` has index n, `sp` has index 16 (10_state.md R21). -/
def Reg.index : Reg → Fin 17
  | .r0 => 0 | .r1 => 1 | .r2 => 2 | .r3 => 3 | .r4 => 4 | .r5 => 5 | .r6 => 6 | .r7 => 7 | .r8 => 8
  | .r9 => 9 | .r10 => 10 | .r11 => 11 | .r12 => 12 | .r13 => 13 | .r14 => 14 | .r15 => 15 | .sp => 16

/-- The register an index names, if it is at most 16 (10_state.md R21). -/
def Reg.ofIndex : Nat → Option Reg
  | 0 => some .r0 | 1 => some .r1 | 2 => some .r2 | 3 => some .r3 | 4 => some .r4 | 5 => some .r5
  | 6 => some .r6 | 7 => some .r7 | 8 => some .r8 | 9 => some .r9 | 10 => some .r10 | 11 => some .r11
  | 12 => some .r12 | 13 => some .r13 | 14 => some .r14 | 15 => some .r15 | 16 => some .sp
  | _ => none

/-- The width a `w` field codes: 0 byte, 1 quarter, 2 half, 3 word (30_encoding.md R105). -/
def Width.ofCode (c : BitVec 2) : Width :=
  if c = 0 then .byte else if c = 1 then .quarter else if c = 2 then .half else .word

/-- The `w` field of a width (30_encoding.md R105). -/
def Width.code : Width → BitVec 2
  | .byte => 0
  | .quarter => 1
  | .half => 2
  | .word => 3

/-! ### The abstract instruction -/

/-- `Operand(W)` (30_encoding.md R90): a register, or a literal (at most `MAX_W` in a well-formed instruction). -/
inductive Operand where
  | reg (r : Reg)
  | imm (v : Word)
deriving DecidableEq, Repr

/-- The operand is one that decoding admits at width W (30_encoding.md R90, R96). -/
def Operand.wf (w : Width) : Operand → Bool
  | .reg _ => true
  | .imm v => immFits w v

/-- Width-carrying operations of shape R (30_encoding.md R91). -/
inductive UnOp where
  | not | push | pop
deriving DecidableEq, Repr

/-- Operations of shape O (30_encoding.md R91). -/
inductive TargetOp where
  | jump | call | printStack
deriving DecidableEq, Repr

/-- Operations of shape RO (30_encoding.md R91). -/
inductive BinOp where
  | set | add | sub | mul | div | rem | and | or | xor | test | compare
deriving DecidableEq, Repr

/-- The 21 operations (30_encoding.md R90, R106), grouped by shape. -/
inductive Opcode where
  | stop | ret
  | unary (o : UnOp)
  | printRegister
  | target (o : TargetOp)
  | binary (o : BinOp)
  | setIndirect
deriving DecidableEq, Repr

/-- The abstract instruction of 30_encoding.md R90: an operation with its width tag and payload, by shape (R91). -/
inductive Form where
  | stop
  | ret
  | unary (o : UnOp) (w : Width) (rd : Reg)
  | printRegister (r : Reg)
  | target (o : TargetOp) (src : Operand)
  | binary (o : BinOp) (w : Width) (rd : Reg) (src : Operand)
  | setIndirect (w : Width) (ri rv : Reg)
deriving DecidableEq, Repr

/-- The operation of an abstract instruction. -/
def Form.opcode : Form → Opcode
  | .stop => .stop
  | .ret => .ret
  | .unary o _ _ => .unary o
  | .printRegister _ => .printRegister
  | .target o _ => .target o
  | .binary o _ _ _ => .binary o
  | .setIndirect _ _ _ => .setIndirect

/-- Well-formedness of an abstract instruction: its literal fits its width, Word for shape O (30_encoding.md R90). -/
def Form.wf : Form → Bool
  | .target _ src => src.wf .word
  | .binary _ w _ src => src.wf w
  | _ => true

/-- The abstract view of an instruction (30_encoding.md R90): the constructor with its width and operand pulled apart. -/
def Instr.toForm : Instr → Form
  | .stop => .stop
  | .setByteR rd rs => .binary .set .byte rd (.reg rs)
  | .setByteI rd imm => .binary .set .byte rd (.imm imm)
  | .setQuarterR rd rs => .binary .set .quarter rd (.reg rs)
  | .setQuarterI rd imm => .binary .set .quarter rd (.imm imm)
  | .setHalfR rd rs => .binary .set .half rd (.reg rs)
  | .setHalfI rd imm => .binary .set .half rd (.imm imm)
  | .setWordR rd rs => .binary .set .word rd (.reg rs)
  | .setWordI rd imm => .binary .set .word rd (.imm imm)
  | .addByteR rd rs => .binary .add .byte rd (.reg rs)
  | .addByteI rd imm => .binary .add .byte rd (.imm imm)
  | .addQuarterR rd rs => .binary .add .quarter rd (.reg rs)
  | .addQuarterI rd imm => .binary .add .quarter rd (.imm imm)
  | .addHalfR rd rs => .binary .add .half rd (.reg rs)
  | .addHalfI rd imm => .binary .add .half rd (.imm imm)
  | .addWordR rd rs => .binary .add .word rd (.reg rs)
  | .addWordI rd imm => .binary .add .word rd (.imm imm)
  | .subByteR rd rs => .binary .sub .byte rd (.reg rs)
  | .subByteI rd imm => .binary .sub .byte rd (.imm imm)
  | .subQuarterR rd rs => .binary .sub .quarter rd (.reg rs)
  | .subQuarterI rd imm => .binary .sub .quarter rd (.imm imm)
  | .subHalfR rd rs => .binary .sub .half rd (.reg rs)
  | .subHalfI rd imm => .binary .sub .half rd (.imm imm)
  | .subWordR rd rs => .binary .sub .word rd (.reg rs)
  | .subWordI rd imm => .binary .sub .word rd (.imm imm)
  | .mulByteR rd rs => .binary .mul .byte rd (.reg rs)
  | .mulByteI rd imm => .binary .mul .byte rd (.imm imm)
  | .mulQuarterR rd rs => .binary .mul .quarter rd (.reg rs)
  | .mulQuarterI rd imm => .binary .mul .quarter rd (.imm imm)
  | .mulHalfR rd rs => .binary .mul .half rd (.reg rs)
  | .mulHalfI rd imm => .binary .mul .half rd (.imm imm)
  | .mulWordR rd rs => .binary .mul .word rd (.reg rs)
  | .mulWordI rd imm => .binary .mul .word rd (.imm imm)
  | .divByteR rd rs => .binary .div .byte rd (.reg rs)
  | .divByteI rd imm => .binary .div .byte rd (.imm imm)
  | .divQuarterR rd rs => .binary .div .quarter rd (.reg rs)
  | .divQuarterI rd imm => .binary .div .quarter rd (.imm imm)
  | .divHalfR rd rs => .binary .div .half rd (.reg rs)
  | .divHalfI rd imm => .binary .div .half rd (.imm imm)
  | .divWordR rd rs => .binary .div .word rd (.reg rs)
  | .divWordI rd imm => .binary .div .word rd (.imm imm)
  | .remByteR rd rs => .binary .rem .byte rd (.reg rs)
  | .remByteI rd imm => .binary .rem .byte rd (.imm imm)
  | .remQuarterR rd rs => .binary .rem .quarter rd (.reg rs)
  | .remQuarterI rd imm => .binary .rem .quarter rd (.imm imm)
  | .remHalfR rd rs => .binary .rem .half rd (.reg rs)
  | .remHalfI rd imm => .binary .rem .half rd (.imm imm)
  | .remWordR rd rs => .binary .rem .word rd (.reg rs)
  | .remWordI rd imm => .binary .rem .word rd (.imm imm)
  | .pushByte rd => .unary .push .byte rd
  | .pushQuarter rd => .unary .push .quarter rd
  | .pushHalf rd => .unary .push .half rd
  | .pushWord rd => .unary .push .word rd
  | .popByte rd => .unary .pop .byte rd
  | .popQuarter rd => .unary .pop .quarter rd
  | .popHalf rd => .unary .pop .half rd
  | .popWord rd => .unary .pop .word rd
  | .callR rs => .target .call (.reg rs)
  | .callI imm => .target .call (.imm imm)
  | .ret => .ret
  | .andByteR rd rs => .binary .and .byte rd (.reg rs)
  | .andByteI rd imm => .binary .and .byte rd (.imm imm)
  | .andQuarterR rd rs => .binary .and .quarter rd (.reg rs)
  | .andQuarterI rd imm => .binary .and .quarter rd (.imm imm)
  | .andHalfR rd rs => .binary .and .half rd (.reg rs)
  | .andHalfI rd imm => .binary .and .half rd (.imm imm)
  | .andWordR rd rs => .binary .and .word rd (.reg rs)
  | .andWordI rd imm => .binary .and .word rd (.imm imm)
  | .orByteR rd rs => .binary .or .byte rd (.reg rs)
  | .orByteI rd imm => .binary .or .byte rd (.imm imm)
  | .orQuarterR rd rs => .binary .or .quarter rd (.reg rs)
  | .orQuarterI rd imm => .binary .or .quarter rd (.imm imm)
  | .orHalfR rd rs => .binary .or .half rd (.reg rs)
  | .orHalfI rd imm => .binary .or .half rd (.imm imm)
  | .orWordR rd rs => .binary .or .word rd (.reg rs)
  | .orWordI rd imm => .binary .or .word rd (.imm imm)
  | .xorByteR rd rs => .binary .xor .byte rd (.reg rs)
  | .xorByteI rd imm => .binary .xor .byte rd (.imm imm)
  | .xorQuarterR rd rs => .binary .xor .quarter rd (.reg rs)
  | .xorQuarterI rd imm => .binary .xor .quarter rd (.imm imm)
  | .xorHalfR rd rs => .binary .xor .half rd (.reg rs)
  | .xorHalfI rd imm => .binary .xor .half rd (.imm imm)
  | .xorWordR rd rs => .binary .xor .word rd (.reg rs)
  | .xorWordI rd imm => .binary .xor .word rd (.imm imm)
  | .notByte rd => .unary .not .byte rd
  | .notQuarter rd => .unary .not .quarter rd
  | .notHalf rd => .unary .not .half rd
  | .notWord rd => .unary .not .word rd
  | .testByteR rd rs => .binary .test .byte rd (.reg rs)
  | .testByteI rd imm => .binary .test .byte rd (.imm imm)
  | .testQuarterR rd rs => .binary .test .quarter rd (.reg rs)
  | .testQuarterI rd imm => .binary .test .quarter rd (.imm imm)
  | .testHalfR rd rs => .binary .test .half rd (.reg rs)
  | .testHalfI rd imm => .binary .test .half rd (.imm imm)
  | .testWordR rd rs => .binary .test .word rd (.reg rs)
  | .testWordI rd imm => .binary .test .word rd (.imm imm)
  | .compareByteR rd rs => .binary .compare .byte rd (.reg rs)
  | .compareByteI rd imm => .binary .compare .byte rd (.imm imm)
  | .compareQuarterR rd rs => .binary .compare .quarter rd (.reg rs)
  | .compareQuarterI rd imm => .binary .compare .quarter rd (.imm imm)
  | .compareHalfR rd rs => .binary .compare .half rd (.reg rs)
  | .compareHalfI rd imm => .binary .compare .half rd (.imm imm)
  | .compareWordR rd rs => .binary .compare .word rd (.reg rs)
  | .compareWordI rd imm => .binary .compare .word rd (.imm imm)
  | .jumpR rs => .target .jump (.reg rs)
  | .jumpI imm => .target .jump (.imm imm)
  | .printRegister rd => .printRegister rd
  | .printStackR rs => .target .printStack (.reg rs)
  | .printStackI imm => .target .printStack (.imm imm)
  | .setIndirectByte ri rv => .setIndirect .byte ri rv
  | .setIndirectQuarter ri rv => .setIndirect .quarter ri rv
  | .setIndirectHalf ri rv => .setIndirect .half ri rv
  | .setIndirectWord ri rv => .setIndirect .word ri rv

/-- The instruction an abstract form stands for; the inverse of `Instr.toForm`. -/
def Instr.ofForm : Form → Instr
  | .stop => .stop
  | .binary .set .byte rd (.reg rs) => .setByteR rd rs
  | .binary .set .byte rd (.imm imm) => .setByteI rd imm
  | .binary .set .quarter rd (.reg rs) => .setQuarterR rd rs
  | .binary .set .quarter rd (.imm imm) => .setQuarterI rd imm
  | .binary .set .half rd (.reg rs) => .setHalfR rd rs
  | .binary .set .half rd (.imm imm) => .setHalfI rd imm
  | .binary .set .word rd (.reg rs) => .setWordR rd rs
  | .binary .set .word rd (.imm imm) => .setWordI rd imm
  | .binary .add .byte rd (.reg rs) => .addByteR rd rs
  | .binary .add .byte rd (.imm imm) => .addByteI rd imm
  | .binary .add .quarter rd (.reg rs) => .addQuarterR rd rs
  | .binary .add .quarter rd (.imm imm) => .addQuarterI rd imm
  | .binary .add .half rd (.reg rs) => .addHalfR rd rs
  | .binary .add .half rd (.imm imm) => .addHalfI rd imm
  | .binary .add .word rd (.reg rs) => .addWordR rd rs
  | .binary .add .word rd (.imm imm) => .addWordI rd imm
  | .binary .sub .byte rd (.reg rs) => .subByteR rd rs
  | .binary .sub .byte rd (.imm imm) => .subByteI rd imm
  | .binary .sub .quarter rd (.reg rs) => .subQuarterR rd rs
  | .binary .sub .quarter rd (.imm imm) => .subQuarterI rd imm
  | .binary .sub .half rd (.reg rs) => .subHalfR rd rs
  | .binary .sub .half rd (.imm imm) => .subHalfI rd imm
  | .binary .sub .word rd (.reg rs) => .subWordR rd rs
  | .binary .sub .word rd (.imm imm) => .subWordI rd imm
  | .binary .mul .byte rd (.reg rs) => .mulByteR rd rs
  | .binary .mul .byte rd (.imm imm) => .mulByteI rd imm
  | .binary .mul .quarter rd (.reg rs) => .mulQuarterR rd rs
  | .binary .mul .quarter rd (.imm imm) => .mulQuarterI rd imm
  | .binary .mul .half rd (.reg rs) => .mulHalfR rd rs
  | .binary .mul .half rd (.imm imm) => .mulHalfI rd imm
  | .binary .mul .word rd (.reg rs) => .mulWordR rd rs
  | .binary .mul .word rd (.imm imm) => .mulWordI rd imm
  | .binary .div .byte rd (.reg rs) => .divByteR rd rs
  | .binary .div .byte rd (.imm imm) => .divByteI rd imm
  | .binary .div .quarter rd (.reg rs) => .divQuarterR rd rs
  | .binary .div .quarter rd (.imm imm) => .divQuarterI rd imm
  | .binary .div .half rd (.reg rs) => .divHalfR rd rs
  | .binary .div .half rd (.imm imm) => .divHalfI rd imm
  | .binary .div .word rd (.reg rs) => .divWordR rd rs
  | .binary .div .word rd (.imm imm) => .divWordI rd imm
  | .binary .rem .byte rd (.reg rs) => .remByteR rd rs
  | .binary .rem .byte rd (.imm imm) => .remByteI rd imm
  | .binary .rem .quarter rd (.reg rs) => .remQuarterR rd rs
  | .binary .rem .quarter rd (.imm imm) => .remQuarterI rd imm
  | .binary .rem .half rd (.reg rs) => .remHalfR rd rs
  | .binary .rem .half rd (.imm imm) => .remHalfI rd imm
  | .binary .rem .word rd (.reg rs) => .remWordR rd rs
  | .binary .rem .word rd (.imm imm) => .remWordI rd imm
  | .unary .push .byte rd => .pushByte rd
  | .unary .push .quarter rd => .pushQuarter rd
  | .unary .push .half rd => .pushHalf rd
  | .unary .push .word rd => .pushWord rd
  | .unary .pop .byte rd => .popByte rd
  | .unary .pop .quarter rd => .popQuarter rd
  | .unary .pop .half rd => .popHalf rd
  | .unary .pop .word rd => .popWord rd
  | .target .call (.reg rs) => .callR rs
  | .target .call (.imm imm) => .callI imm
  | .ret => .ret
  | .binary .and .byte rd (.reg rs) => .andByteR rd rs
  | .binary .and .byte rd (.imm imm) => .andByteI rd imm
  | .binary .and .quarter rd (.reg rs) => .andQuarterR rd rs
  | .binary .and .quarter rd (.imm imm) => .andQuarterI rd imm
  | .binary .and .half rd (.reg rs) => .andHalfR rd rs
  | .binary .and .half rd (.imm imm) => .andHalfI rd imm
  | .binary .and .word rd (.reg rs) => .andWordR rd rs
  | .binary .and .word rd (.imm imm) => .andWordI rd imm
  | .binary .or .byte rd (.reg rs) => .orByteR rd rs
  | .binary .or .byte rd (.imm imm) => .orByteI rd imm
  | .binary .or .quarter rd (.reg rs) => .orQuarterR rd rs
  | .binary .or .quarter rd (.imm imm) => .orQuarterI rd imm
  | .binary .or .half rd (.reg rs) => .orHalfR rd rs
  | .binary .or .half rd (.imm imm) => .orHalfI rd imm
  | .binary .or .word rd (.reg rs) => .orWordR rd rs
  | .binary .or .word rd (.imm imm) => .orWordI rd imm
  | .binary .xor .byte rd (.reg rs) => .xorByteR rd rs
  | .binary .xor .byte rd (.imm imm) => .xorByteI rd imm
  | .binary .xor .quarter rd (.reg rs) => .xorQuarterR rd rs
  | .binary .xor .quarter rd (.imm imm) => .xorQuarterI rd imm
  | .binary .xor .half rd (.reg rs) => .xorHalfR rd rs
  | .binary .xor .half rd (.imm imm) => .xorHalfI rd imm
  | .binary .xor .word rd (.reg rs) => .xorWordR rd rs
  | .binary .xor .word rd (.imm imm) => .xorWordI rd imm
  | .unary .not .byte rd => .notByte rd
  | .unary .not .quarter rd => .notQuarter rd
  | .unary .not .half rd => .notHalf rd
  | .unary .not .word rd => .notWord rd
  | .binary .test .byte rd (.reg rs) => .testByteR rd rs
  | .binary .test .byte rd (.imm imm) => .testByteI rd imm
  | .binary .test .quarter rd (.reg rs) => .testQuarterR rd rs
  | .binary .test .quarter rd (.imm imm) => .testQuarterI rd imm
  | .binary .test .half rd (.reg rs) => .testHalfR rd rs
  | .binary .test .half rd (.imm imm) => .testHalfI rd imm
  | .binary .test .word rd (.reg rs) => .testWordR rd rs
  | .binary .test .word rd (.imm imm) => .testWordI rd imm
  | .binary .compare .byte rd (.reg rs) => .compareByteR rd rs
  | .binary .compare .byte rd (.imm imm) => .compareByteI rd imm
  | .binary .compare .quarter rd (.reg rs) => .compareQuarterR rd rs
  | .binary .compare .quarter rd (.imm imm) => .compareQuarterI rd imm
  | .binary .compare .half rd (.reg rs) => .compareHalfR rd rs
  | .binary .compare .half rd (.imm imm) => .compareHalfI rd imm
  | .binary .compare .word rd (.reg rs) => .compareWordR rd rs
  | .binary .compare .word rd (.imm imm) => .compareWordI rd imm
  | .target .jump (.reg rs) => .jumpR rs
  | .target .jump (.imm imm) => .jumpI imm
  | .printRegister rd => .printRegister rd
  | .target .printStack (.reg rs) => .printStackR rs
  | .target .printStack (.imm imm) => .printStackI imm
  | .setIndirect .byte ri rv => .setIndirectByte ri rv
  | .setIndirect .quarter ri rv => .setIndirectQuarter ri rv
  | .setIndirect .half ri rv => .setIndirectHalf ri rv
  | .setIndirect .word ri rv => .setIndirectWord ri rv

/-! ### Operation numbers and shapes -/

/-- Operation numbers (30_encoding.md R106). -/
def Opcode.number : Opcode → Nat
  | .stop => 0
  | .binary .set => 1
  | .binary .add => 2
  | .binary .sub => 3
  | .binary .mul => 4
  | .binary .div => 5
  | .binary .rem => 6
  | .unary .push => 7
  | .unary .pop => 8
  | .target .call => 9
  | .ret => 10
  | .binary .and => 11
  | .binary .or => 12
  | .binary .xor => 13
  | .unary .not => 14
  | .binary .test => 15
  | .binary .compare => 16
  | .target .jump => 17
  | .printRegister => 18
  | .target .printStack => 19
  | .setIndirect => 20

/-- The operation with a number; 21 to 31 are unassigned (30_encoding.md R106). -/
def Opcode.ofNumber : Nat → Option Opcode
  | 0 => some .stop
  | 1 => some (.binary .set)
  | 2 => some (.binary .add)
  | 3 => some (.binary .sub)
  | 4 => some (.binary .mul)
  | 5 => some (.binary .div)
  | 6 => some (.binary .rem)
  | 7 => some (.unary .push)
  | 8 => some (.unary .pop)
  | 9 => some (.target .call)
  | 10 => some .ret
  | 11 => some (.binary .and)
  | 12 => some (.binary .or)
  | 13 => some (.binary .xor)
  | 14 => some (.unary .not)
  | 15 => some (.binary .test)
  | 16 => some (.binary .compare)
  | 17 => some (.target .jump)
  | 18 => some .printRegister
  | 19 => some (.target .printStack)
  | 20 => some .setIndirect
  | _ => none

/-- The five operand shapes (30_encoding.md R91). -/
inductive Shape where
  | n | r | o | ro | rr
deriving DecidableEq, Repr

/-- The shape of an operation (30_encoding.md R91, R93). -/
def Opcode.shape : Opcode → Shape
  | .stop => .n
  | .ret => .n
  | .unary _ => .r
  | .printRegister => .r
  | .target _ => .o
  | .binary _ => .ro
  | .setIndirect => .rr

/-- The shapes whose first token is a register, held in the `rd` field (30_encoding.md R107). -/
def Shape.hasRd : Shape → Bool
  | .n => false
  | .r => true
  | .o => false
  | .ro => true
  | .rr => true

/-- The shapes with an operand, whose kind is the `k` field (30_encoding.md R107). -/
def Shape.hasOperand : Shape → Bool
  | .n => false
  | .r => false
  | .o => true
  | .ro => true
  | .rr => false

/-- The operations whose mnemonic carries no width (30_encoding.md R93, R109). -/
def Opcode.widthless : Opcode → Bool
  | .stop => true
  | .ret => true
  | .unary _ => false
  | .printRegister => true
  | .target _ => true
  | .binary _ => false
  | .setIndirect => false

/-! ### The instruction word -/

/-- The fields of the instruction word (30_encoding.md R105). -/
structure Fields where
  op : BitVec 5
  w : BitVec 2
  k : BitVec 1
  rd : BitVec 5
  z : BitVec 3
  imm : BitVec 64
deriving DecidableEq, Repr

/-- The fields cut out of a word: `op` 79:75, `w` 74:73, `k` 72, `rd` 71:67, `z` 66:64, `imm` 63:0 (R105). -/
def Fields.ofWord (word : InstrWord) : Fields :=
  { op := word.extractLsb' 75 5
    w := word.extractLsb' 73 2
    k := word.extractLsb' 72 1
    rd := word.extractLsb' 67 5
    z := word.extractLsb' 64 3
    imm := word.extractLsb' 0 64 }

/-- The word that holds the fields (30_encoding.md R105). -/
def Fields.toWord (f : Fields) : InstrWord := f.op ++ f.w ++ f.k ++ f.rd ++ f.z ++ f.imm

/-- `imm[4:0]`, the index of the operand's or second register (30_encoding.md R105). -/
def Fields.rs (f : Fields) : BitVec 5 := f.imm.extractLsb' 0 5

/-- `imm[63:5]`, which must be zero where `imm` holds a register index (30_encoding.md R107). -/
def Fields.immHigh (f : Fields) : BitVec 59 := f.imm.extractLsb' 5 59

/-- What an UnknownOpcode error records (60_exceptions.md R261): the token (text) or the `op` field (word). -/
inductive OpcodeInfo where
  | token (t : Token)
  | field (op : BitVec 5)
deriving DecidableEq, Repr

/-- What a WrongArity error records (60_exceptions.md R261): mnemonic, expected and found counts (text), or `op`. -/
inductive ArityInfo where
  | tokens (mnemonic : Token) (expected found : Nat)
  | field (op : BitVec 5)
deriving DecidableEq, Repr

/-- What an InvalidRegister error records (60_exceptions.md R261): the token (text) or the 5-bit field (word). -/
inductive RegisterInfo where
  | token (t : Token)
  | field (v : BitVec 5)
deriving DecidableEq, Repr

/-- What an InvalidOperand error records beside the width (60_exceptions.md R261): the token (text) or `imm` (word). -/
inductive OperandInfo where
  | token (t : Token)
  | field (imm : BitVec 64)
deriving DecidableEq, Repr

/-- The four decode errors (60_exceptions.md R263 to R266). -/
inductive DecodeError where
  | unknownOpcode (info : OpcodeInfo)
  | wrongArity (info : ArityInfo)
  | invalidRegister (info : RegisterInfo)
  | invalidOperand (info : OperandInfo) (w : Width)
deriving DecidableEq, Repr

/-- The width an operand of this operation is decoded at: Word for shape O, else the `w` field (30_encoding.md R109). -/
def Fields.operandWidth (f : Fields) (o : Opcode) : Width :=
  if o.shape = .o then .word else Width.ofCode f.w

/-- `mbz_ok` of 30_encoding.md R109: every field the shape does not use is zero. -/
def Fields.mbzOk (f : Fields) (o : Opcode) : Bool :=
  decide (f.z = 0)
    && (!o.widthless || decide (f.w = 0))
    && (o.shape.hasOperand || decide (f.k = 0))
    && (o.shape.hasRd || decide (f.rd = 0))
    && (o.shape.hasOperand || decide (o.shape = .rr) || decide (f.imm = 0))
    && (!(decide (o.shape = .rr) || (o.shape.hasOperand && decide (f.k = 0))) || decide (f.immHigh = 0))

/-- The register a 5-bit field names. Used only after the field is known to be at most 16 (30_encoding.md R109). -/
def regOfField (v : BitVec 5) : Reg := (Reg.ofIndex v.toNat).getD .sp

/-- The operand of an accepted word: `Register(Reg(imm[4:0]))` or `Immediate(imm)` as `k` says (30_encoding.md R109). -/
def Fields.operand (f : Fields) : Operand := if f.k = 0 then .reg (regOfField f.rs) else .imm f.imm

/-- The abstract instruction of an accepted word: the last line of 30_encoding.md R109. -/
def Fields.form (f : Fields) : Opcode → Form
  | .stop => .stop
  | .ret => .ret
  | .unary o => .unary o (Width.ofCode f.w) (regOfField f.rd)
  | .printRegister => .printRegister (regOfField f.rd)
  | .target o => .target o f.operand
  | .binary o => .binary o (Width.ofCode f.w) (regOfField f.rd) f.operand
  | .setIndirect => .setIndirect (Width.ofCode f.w) (regOfField f.rd) (regOfField f.rs)

/-- The checks of `DecodeWord` after the opcode, in the order of 30_encoding.md R109: the first that fails names the
error. -/
def Fields.check (f : Fields) (o : Opcode) : Option DecodeError :=
  if o.shape.hasRd ∧ 16 < f.rd.toNat then some (.invalidRegister (.field f.rd))
  else if o.shape = .rr ∧ 16 < f.rs.toNat then some (.invalidRegister (.field f.rs))
  else if o.shape.hasOperand ∧ f.k = 0 ∧ 16 < f.rs.toNat then
    some (.invalidOperand (.field f.imm) (f.operandWidth o))
  else if o.shape.hasOperand ∧ f.k = 1 ∧ (f.operandWidth o).maxVal < f.imm.toNat then
    some (.invalidOperand (.field f.imm) (f.operandWidth o))
  else if f.mbzOk o then none
  else some (.wrongArity (.field f.op))

/-- `DecodeWord` on the fields of a word (30_encoding.md R109). -/
def Fields.decode (f : Fields) : Except DecodeError Form :=
  match Opcode.ofNumber f.op.toNat with
  | none => .error (.unknownOpcode (.field f.op))
  | some o =>
    match f.check o with
    | some e => .error e
    | none => .ok (f.form o)

/-- `DecodeWord` (30_encoding.md R109, R110): total on 80-bit words. -/
def decodeWord (word : InstrWord) : Except DecodeError Instr :=
  match (Fields.ofWord word).decode with
  | .error e => .error e
  | .ok form => .ok (Instr.ofForm form)

/-- The instruction the decoder reads from a word given as a number in the numbering of spec/opcode_table.json; the
bits above `nbits` are zero. -/
def decodeTableWord (nbits w : Nat) : Option Instr :=
  match decodeWord (BitVec.ofNat 80 (w % 2 ^ nbits)) with
  | .error _ => none
  | .ok i => some i

/-! ### The encoder -/

/-- The `rd` or `imm[4:0]` field that names a register (30_encoding.md R105). -/
def Reg.field (r : Reg) : BitVec 5 := BitVec.ofNat 5 r.index.val

/-- `imm` holding a register index in bits 4:0, the rest zero (30_encoding.md R107). -/
def Reg.immField (r : Reg) : BitVec 64 := BitVec.ofNat 64 r.index.val

/-- The `k` field of an operand: 0 register, 1 immediate (30_encoding.md R105). -/
def Operand.kField : Operand → BitVec 1
  | .reg _ => 0
  | .imm _ => 1

/-- The `imm` field of an operand (30_encoding.md R107). -/
def Operand.immField : Operand → BitVec 64
  | .reg r => r.immField
  | .imm v => v

/-- The fields of an instruction's word, row by row of 30_encoding.md R107; an unused field is zero. -/
def Form.fields (form : Form) : Fields :=
  let op := BitVec.ofNat 5 form.opcode.number
  match form with
  | .stop => { op := op, w := 0, k := 0, rd := 0, z := 0, imm := 0 }
  | .ret => { op := op, w := 0, k := 0, rd := 0, z := 0, imm := 0 }
  | .unary _ w rd => { op := op, w := w.code, k := 0, rd := rd.field, z := 0, imm := 0 }
  | .printRegister r => { op := op, w := 0, k := 0, rd := r.field, z := 0, imm := 0 }
  | .target _ src => { op := op, w := 0, k := src.kField, rd := 0, z := 0, imm := src.immField }
  | .binary _ w rd src =>
    { op := op, w := w.code, k := src.kField, rd := rd.field, z := 0, imm := src.immField }
  | .setIndirect w ri rv => { op := op, w := w.code, k := 0, rd := ri.field, z := 0, imm := rv.immField }

/-- The word of an instruction (30_encoding.md R105, R107, R111). -/
def encode (i : Instr) : InstrWord := i.toForm.fields.toWord

end Sys2Proof
end

