-- ==== Sys2Proof/Machine/Text.lean ====
section
/-! DEFINITION. The assembler text of the instructions (30_encoding.md R92 to R97): mnemonics, register names, decimal
literals, the text decoder with its four errors in left-to-right order; the assembler and its inverse (R111); and the
boundary of the external loader (20_memory.md R66, 30_encoding.md R99). -/

namespace Sys2Proof

/-! ### Mnemonics and register names -/

/-- The width part of a mnemonic (30_encoding.md R93). -/
def Width.suffix : Width → Token
  | .byte => "byte".toList
  | .quarter => "quarter".toList
  | .half => "half".toList
  | .word => "word".toList

/-- The stem of a mnemonic, or the whole mnemonic of a widthless operation (30_encoding.md R93, decision D4). -/
def Opcode.stem : Opcode → Token
  | .stop => "stop".toList
  | .ret => "return".toList
  | .unary .not => "not".toList
  | .unary .push => "push".toList
  | .unary .pop => "pop".toList
  | .printRegister => "print-register".toList
  | .target .jump => "jump".toList
  | .target .call => "call".toList
  | .target .printStack => "print-stack".toList
  | .binary .set => "set".toList
  | .binary .add => "add".toList
  | .binary .sub => "sub".toList
  | .binary .mul => "mul".toList
  | .binary .div => "div".toList
  | .binary .rem => "rem".toList
  | .binary .and => "and".toList
  | .binary .or => "or".toList
  | .binary .xor => "xor".toList
  | .binary .test => "test".toList
  | .binary .compare => "compare".toList
  | .setIndirect => "set-indirect".toList

/-- The mnemonic `<stem>-<width>`, or the bare stem (30_encoding.md R93). -/
def Opcode.mnemonic (o : Opcode) (w : Width) : Token :=
  if o.widthless then o.stem else o.stem ++ '-' :: w.suffix

/-- The 21 operations in the order of their numbers (30_encoding.md R106). -/
def allOpcodes : List Opcode := (List.range 21).filterMap Opcode.ofNumber

/-- The static mnemonic table of 30_encoding.md R93: 66 rows of mnemonic, operation and width (Word where the mnemonic
carries none, R97). -/
def mnemonicTable : List (Token × Opcode × Width) :=
  allOpcodes.flatMap fun o =>
    if o.widthless then [(o.stem, o, .word)]
    else [Width.byte, .quarter, .half, .word].map fun w => (o.mnemonic w, o, w)

/-- Opcode lookup by mnemonic (30_encoding.md R93). -/
def lookupMnemonic (t : Token) : Option (Opcode × Width) :=
  (mnemonicTable.find? fun row => decide (row.1 = t)).map Prod.snd

/-- The one name of a register (10_state.md R21). -/
def Reg.name : Reg → Token
  | .r0 => "r0".toList | .r1 => "r1".toList | .r2 => "r2".toList | .r3 => "r3".toList
  | .r4 => "r4".toList | .r5 => "r5".toList | .r6 => "r6".toList | .r7 => "r7".toList
  | .r8 => "r8".toList | .r9 => "r9".toList | .r10 => "r10".toList | .r11 => "r11".toList
  | .r12 => "r12".toList | .r13 => "r13".toList | .r14 => "r14".toList | .r15 => "r15".toList
  | .sp => "sp".toList

/-- The 17 registers in index order (10_state.md R21). -/
def allRegs : List Reg := (List.range 17).filterMap Reg.ofIndex

/-- The register a token names, if it is exactly one of the 17 names (30_encoding.md R94). -/
def Reg.ofName (t : Token) : Option Reg := allRegs.find? fun r => decide (r.name = t)

/-! ### Numeric literals -/

/-- The value of a decimal digit character `0` to `9` (30_encoding.md R96). -/
def digitValue (c : Char) : Option Nat :=
  if 48 ≤ c.toNat ∧ c.toNat ≤ 57 then some (c.toNat - 48) else none

/-- The value of a run of decimal digits that continues the value `acc`. -/
def digitsValue : Nat → Token → Option Nat
  | acc, [] => some acc
  | acc, c :: cs =>
    match digitValue c with
    | some d => digitsValue (10 * acc + d) cs
    | none => none

/-- A numeric literal: one or more decimal digits and nothing else (30_encoding.md R96, decision D7). -/
def literalValue (t : Token) : Option Nat := if t = [] then none else digitsValue 0 t

/-- Operand tokens (30_encoding.md R95): a register name, else a literal with value at most `MAX_W`. -/
def parseOperand (w : Width) (t : Token) : Except DecodeError Operand :=
  match Reg.ofName t with
  | some r => .ok (.reg r)
  | none =>
    match literalValue t with
    | some v => if v ≤ w.maxVal then .ok (.imm (BitVec.ofNat 64 v)) else .error (.invalidOperand (.token t) w)
    | none => .error (.invalidOperand (.token t) w)

/-! ### The text decoder -/

/-- The number of tokens a shape expects after the opcode (30_encoding.md R91). -/
def Shape.arity : Shape → Nat
  | .n => 0
  | .r => 1
  | .o => 1
  | .ro => 2
  | .rr => 2

/-- The next token as a register (30_encoding.md R97); `missing` is the error if there is none. -/
def takeReg (missing : DecodeError) : List Token → Except DecodeError (Reg × List Token)
  | [] => .error missing
  | t :: rest =>
    match Reg.ofName t with
    | some r => .ok (r, rest)
    | none => .error (.invalidRegister (.token t))

/-- The next token as an operand of width W (30_encoding.md R97). -/
def takeOperand (w : Width) (missing : DecodeError) : List Token → Except DecodeError (Operand × List Token)
  | [] => .error missing
  | t :: rest =>
    match parseOperand w t with
    | .ok o => .ok (o, rest)
    | .error e => .error e

/-- The line is used up (30_encoding.md R97): surplus tokens are WrongArity. -/
def endOfLine (surplus : DecodeError) : List Token → Except DecodeError Unit
  | [] => .ok ()
  | _ :: _ => .error surplus

/-- The operand tokens of an operation, checked left to right (30_encoding.md R97, decision D8). -/
def parseArgs (o : Opcode) (w : Width) (arity : DecodeError) (args : List Token) : Except DecodeError Form :=
  match o with
  | .stop => do
    endOfLine arity args
    return .stop
  | .ret => do
    endOfLine arity args
    return .ret
  | .unary u => do
    let (rd, rest) ← takeReg arity args
    endOfLine arity rest
    return .unary u w rd
  | .printRegister => do
    let (r, rest) ← takeReg arity args
    endOfLine arity rest
    return .printRegister r
  | .target u => do
    let (src, rest) ← takeOperand .word arity args
    endOfLine arity rest
    return .target u src
  | .binary b => do
    let (rd, rest) ← takeReg arity args
    let (src, rest) ← takeOperand w arity rest
    endOfLine arity rest
    return .binary b w rd src
  | .setIndirect => do
    let (ri, rest) ← takeReg arity args
    let (rv, rest) ← takeReg arity rest
    endOfLine arity rest
    return .setIndirect w ri rv

/-- `DecodeText` (30_encoding.md R97). A line with no token never reaches the engine (R99): DESIGN CHOICE, safe, it is
UnknownOpcode of the empty token (log entry 8). -/
def decodeText : List Token → Except DecodeError Instr
  | [] => .error (.unknownOpcode (.token []))
  | t0 :: args =>
    match lookupMnemonic t0 with
    | none => .error (.unknownOpcode (.token t0))
    | some (o, w) =>
      match parseArgs o w (.wrongArity (.tokens t0 o.shape.arity args.length)) args with
      | .error e => .error e
      | .ok form => .ok (Instr.ofForm form)

/-- Decoding one fetched instruction, at whichever level the loader delivers it (20_memory.md R66; 40_engine_cycle.md
R141). -/
def decodeLine : Line → Except DecodeError Instr
  | .text tokens => decodeText tokens
  | .word bits => decodeWord bits

/-! ### Assembler and its inverse -/

/-- `Assemble(line)` (30_encoding.md R111): defined for every line that `DecodeText` accepts. -/
def assemble (tokens : List Token) : Except DecodeError InstrWord :=
  match decodeText tokens with
  | .error e => .error e
  | .ok i => .ok (encode i)

/-- Decimal digits of a number, most significant first, in front of `acc`; `fuel` bounds their number. -/
def decimalDigits : Nat → Nat → Token → Token
  | 0, _, acc => acc
  | fuel + 1, n, acc =>
    let acc := Char.ofNat (48 + n % 10) :: acc
    if n / 10 = 0 then acc else decimalDigits fuel (n / 10) acc

/-- The literal of a 64-bit value, without leading zeros (30_encoding.md R96): at most 20 digits. -/
def Operand.token : Operand → Token
  | .reg r => r.name
  | .imm v => decimalDigits 20 v.toNat []

/-- The line that spells an abstract instruction (30_encoding.md R91, R93). -/
def Form.tokens (form : Form) : List Token :=
  match form with
  | .stop => [Opcode.stop.stem]
  | .ret => [Opcode.ret.stem]
  | .unary o w rd => [(Opcode.unary o).mnemonic w, rd.name]
  | .printRegister r => [Opcode.printRegister.stem, r.name]
  | .target o src => [(Opcode.target o).stem, src.token]
  | .binary o w rd src => [(Opcode.binary o).mnemonic w, rd.name, src.token]
  | .setIndirect w ri rv => [Opcode.setIndirect.mnemonic w, ri.name, rv.name]

/-- The line that spells an instruction. -/
def Instr.tokens (i : Instr) : List Token := i.toForm.tokens

/-! ### The loader's boundary -/

/-- The two characters that separate tokens: space and horizontal tab (30_encoding.md R92, decision D8). -/
def isSeparator (c : Char) : Bool := decide (c.toNat = 32) || decide (c.toNat = 9)

/-- The tokens of a line, `cur` being the token under way. -/
def tokenizeFrom (cur : Token) : List Char → List Token
  | [] => if cur = [] then [] else [cur]
  | c :: cs =>
    if isSeparator c then
      (if cur = [] then tokenizeFrom [] cs else cur :: tokenizeFrom [] cs)
    else tokenizeFrom (cur ++ [c]) cs

/-- Tokens are the maximal runs of characters other than space and tab (30_encoding.md R92). -/
def tokenize (line : List Char) : List Token := tokenizeFrom [] line

/-- A line that begins with the two-character marker of a comment (20_memory.md R66, 30_encoding.md R99). -/
def isComment : List Char → Bool
  | c :: d :: _ => decide (c = '/') && decide (d = '/')
  | _ => false

/-- What the loader keeps: neither a comment nor blank (20_memory.md R66; DESIGN CHOICE, log entry 15: a line is blank
when it holds no token, and a comment's marker stands in its first two characters). -/
def isInstructionLine (line : List Char) : Bool := !isComment line && !(tokenize line).isEmpty

/-- `PROG` from source text, as the external loader makes it: comments and blank lines stripped, one instruction line
per index (20_memory.md R66, 30_encoding.md R99). -/
def loadSource (source : List (List Char)) : List Line :=
  (source.filter isInstructionLine).map fun line => .text (tokenize line)

end Sys2Proof
end

