-- ==== Sys2Proof/Machine/State.lean ====
section
/-! DEFINITION. The state of the kasm engine (spec/10_state.md R36), the errors and events it can hold, the reasons a
step can stop, and the state after reset (R38). Plain data throughout. -/

namespace Sys2Proof.Machine

/-- The three flags (10_state.md R29): zero, overflow, sign. -/
structure Flags where
  z : Bool
  v : Bool
  s : Bool
deriving DecidableEq, Repr

/-- The running flag (10_state.md R32). -/
inductive RunState where
  | running
  | stopped
deriving DecidableEq, Repr

/-- The five execute errors (60_exceptions.md R267 to R271). -/
inductive ExecError where
  | divideByZero
  | invalidRegisterCast (v : Word)
  | stackOverflow
  | stackUnderflow
  | io (msg : Token)
deriving DecidableEq, Repr

/-- The two disjoint taxonomies of errors (60_exceptions.md R260). -/
inductive Error where
  | decode (e : DecodeError)
  | execute (e : ExecError)
deriving DecidableEq, Repr

/-- The stack buffer (10_state.md R37) as the list of the bytes written since reset, addresses strictly rising. An
offset that is not listed has never been written and holds no value of its own: it reads as `Config.stackInit`
(20_memory.md R65; log entry 3). -/
structure Memory where
  cells : List Host.Cell
deriving DecidableEq, Repr

/-- The read-only view of `STK[0 .. limit - 1]` that print-stack hands over (46_print.md R250): the bytes written since
reset below the limit; an unlisted offset below it reads as in `Memory`. -/
structure StackView where
  limit : Nat
  bytes : Memory
deriving DecidableEq, Repr

/-- The events handed to the output collaborator (46_print.md R250). -/
inductive Event where
  | printRegister (index : Nat) (value : Word)
  | printStack (n : Word) (sp : Word) (view : StackView)
  | countReport (count : Word)
deriving DecidableEq, Repr

/-- The whole state (10_state.md R36), with the run's parameters and the model's record of its output. -/
structure State where
  /-- `x[0]` to `x[16]` (10_state.md R20). -/
  regs : Vector Word 17
  /-- The program counter, an instruction index (10_state.md R26). -/
  pc : Word
  /-- The flags (10_state.md R29). -/
  flags : Flags
  /-- The running flag (10_state.md R32). -/
  run : RunState
  /-- The error latch (10_state.md R33). -/
  err : Option Error
  /-- The instruction counter (10_state.md R34). -/
  icount : Word
  /-- The stack buffer (10_state.md R37). -/
  stk : Memory
  /-- The run's parameters (00_scope.md R6), which no step changes (70_reset_and_hazards.md R302). -/
  config : Config
  /-- The model's own: the events emitted so far, oldest first (46_print.md R250; log entry 5). -/
  events : List Event
  /-- The model's own: the output collaborator's answers to the next emissions, as far as the environment has fixed
  them (46_print.md R250; log entry 4). -/
  answers : List SinkAnswer
deriving DecidableEq, Repr

/-- Why a step has no next state. The spec's own errors are no faults here: each ends the step in a next state with
`run` stopped and `err` set (60_exceptions.md R262). -/
inductive Fault where
  /-- Raised by the stack access primitives on an access of `bytes` bytes at `offset` that does not lie inside
  `[0, STACK_CAP)`, where 20_memory.md R61 and R62 leave them undefined. Safe, and no instruction reaches it: the
  bounds checks of R68 come first. -/
  | outsideStackBuffer (offset bytes : Nat)
deriving DecidableEq, Repr

/-- Why an instruction has no meaning. -/
inductive Refusal where
  /-- Raised by an arm of `exec` for an instruction without a meaning. Safe. No arm raises it: every instruction of
  the table has its meaning. -/
  | notModelled (mnemonic : String)
deriving DecidableEq, Repr

/-- The state right after reset, for any parameters of the run (10_state.md R38, 70_reset_and_hazards.md R300): every
register 0, `pc` 0, flags false, Running, no error, `icount` 0, no stack byte written; nothing emitted yet, and no
answer of the output collaborator fixed. -/
def State.resetWith (config : Config) : State :=
  { regs := Vector.replicate 17 0
    pc := 0
    flags := { z := false, v := false, s := false }
    run := .running
    err := none
    icount := 0
    stk := { cells := [] }
    config := config
    events := []
    answers := [] }

/-- The state right after reset with the default parameters (`Config.default`, log entry 2). -/
def State.reset : State := State.resetWith Config.default

end Sys2Proof.Machine
end

