-- ==== Sys2Proof/Machine/Ops.lean ====
section
/-! DEFINITION. The named operations every instruction is made of: registers (10_state.md R23, R24), the stack buffer
(20_memory.md R61, R62, R68), the sequencer's advance (40_engine_cycle.md R145, R146), the abort (60_exceptions.md R262),
emission (46_print.md R250), fetch (20_memory.md R66) and the implicit stop (40_engine_cycle.md R147). -/

namespace Sys2Proof.Machine

/-- The outcome of an instruction. -/
abbrev Result := Host.Outcome State Fault Refusal

/-! ### Registers -/

/-- The 64-bit cell `x[r]` (10_state.md R20). No register is hardwired (R22). -/
def State.reg (s : State) (r : Reg) : Word := s.regs[r.index]

/-- `x[r] <- v` (10_state.md R24). -/
def State.setReg (s : State) (r : Reg) (v : Word) : State := { s with regs := s.regs.set r.index v }

/-- `rdreg(r, W)`, the narrowing read: the low W bits of the cell (10_state.md R23). -/
def State.rdreg (s : State) (r : Reg) (w : Width) : BitVec w.bits := (s.reg r).setWidth w.bits

/-- `wrreg(r, W, v)`, the widening write: the cell becomes `zext_64(v)` (10_state.md R24, decision D6). -/
def State.wrreg (s : State) (r : Reg) (w : Width) (v : BitVec w.bits) : State := s.setReg r (v.setWidth 64)

/-- `x[SP]` as an unbounded integer, as the bounds checks use it (20_memory.md R68). -/
def State.spNat (s : State) : Nat := (s.reg .sp).toNat

/-! ### The stack buffer -/

/-- The byte listed at an offset. -/
def lookupCell : List Host.Cell → Nat → Option Byte
  | [], _ => none
  | (k, b) :: rest, a => if k = a then some b else lookupCell rest a

/-- The list with the byte at an offset put in its place. -/
def insertCell : List Host.Cell → Nat → Byte → List Host.Cell
  | [], a, b => [(a, b)]
  | (k, c) :: rest, a, b =>
    if a < k then (a, b) :: (k, c) :: rest
    else if a = k then (a, b) :: rest
    else (k, c) :: insertCell rest a b

/-- One byte of the buffer: the byte last written there, or `STACK_INIT` if none was since reset (20_memory.md R65,
R70 (b)). -/
def Memory.read (m : Memory) (a : Nat) : Byte := (lookupCell m.cells a).getD (Config.stackInit a)

/-- `STK[a] <- b`. -/
def Memory.write (m : Memory) (a : Nat) (b : Byte) : Memory := { cells := insertCell m.cells a b }

/-- The canonical form: offsets strictly rising. Every listed byte was written since reset, and an unlisted offset
holds no value, so no entry equals what an unlisted offset holds. -/
abbrev Memory.wf (m : Memory) : Prop := m.cells.Pairwise fun c d => c.1 < d.1

/-- The n bytes from offset a as a number, the lowest offset least significant (20_memory.md R61, decision D19). -/
def Memory.readBytes (m : Memory) (a : Nat) : Nat → Nat
  | 0 => 0
  | n + 1 => (m.read a).toNat + 256 * Memory.readBytes m (a + 1) n

/-- Byte k of v stored at offset a + k, for k below n (20_memory.md R62, decision D19). -/
def Memory.writeBytes (m : Memory) (a : Nat) : Nat → Nat → Memory
  | 0, _ => m
  | n + 1, v => Memory.writeBytes (m.write a (BitVec.ofNat 8 v)) (a + 1) n (v / 256)

/-- Why the pseudocode of an instruction ends early: an execute error it raises (60_exceptions.md R262), or a stack
access that the spec leaves undefined (20_memory.md R61, R62). -/
inductive Halt where
  | raise (e : ExecError)
  | fault (f : Fault)
deriving DecidableEq, Repr

/-- `MemRead(addr, n)` (20_memory.md R61), defined only inside the buffer. -/
def State.memRead (s : State) (addr n : Nat) : Except Halt Nat :=
  if addr + n ≤ s.config.stackCap then .ok (s.stk.readBytes addr n)
  else .error (.fault (.outsideStackBuffer addr n))

/-- `MemWrite(addr, n, v)` (20_memory.md R62), defined only inside the buffer. -/
def State.memWrite (s : State) (addr n v : Nat) : Except Halt State :=
  if addr + n ≤ s.config.stackCap then .ok { s with stk := s.stk.writeBytes addr n v }
  else .error (.fault (.outsideStackBuffer addr n))

/-- `StackWriteCheck(n)` (20_memory.md R68). -/
def State.stackWriteCheck (s : State) (n : Nat) : Except Halt Unit :=
  if s.config.stackCap < s.spNat + n then .error (.raise .stackOverflow) else .ok ()

/-- `StackReadCheck(n)` (20_memory.md R68): StackOverflow is tested before StackUnderflow (60_exceptions.md R272). -/
def State.stackReadCheck (s : State) (n : Nat) : Except Halt Unit :=
  if s.config.stackCap < s.spNat then .error (.raise .stackOverflow)
  else if s.spNat < n then .error (.raise .stackUnderflow)
  else .ok ()

/-- The common part of push and call: check, write n bytes at `x[SP]`, then move the pointer up (45_stack.md R240,
44_control_transfer.md R221). -/
def State.pushBytes (s : State) (n v : Nat) : Except Halt State :=
  match s.stackWriteCheck n with
  | .error h => .error h
  | .ok _ =>
    match s.memWrite s.spNat n v with
    | .error h => .error h
    | .ok t => .ok (t.setReg .sp (s.reg .sp + BitVec.ofNat 64 n))

/-- The common part of pop and return: check, move the pointer down, read n bytes there; the value read and the state
with the pointer moved (45_stack.md R241, 44_control_transfer.md R222). -/
def State.popBytes (s : State) (n : Nat) : Except Halt (Nat × State) :=
  match s.stackReadCheck n with
  | .error h => .error h
  | .ok _ =>
    match s.memRead (s.spNat - n) n with
    | .error h => .error h
    | .ok v => .ok (v, s.setReg .sp (s.reg .sp - BitVec.ofNat 64 n))

/-! ### Ending a step -/

/-- `Abort(E)`, taking an error (60_exceptions.md R262): the one way an error ends a step. The state given is the one
before the instruction's writes, which is how they are discarded; `pc` and `icount` stay. Nothing is saved and there is
no handler to go to (R275). -/
def State.abort (s : State) (e : Error) : State := { s with run := .stopped, err := some e }

/-- `icount <- (icount + 1) mod 2^64` (40_engine_cycle.md R146). -/
def State.count (s : State) : State := { s with icount := s.icount + 1 }

/-- `pc <- t` (10_state.md R26). -/
def State.setPc (s : State) (t : Word) : State := { s with pc := t }

/-- `run <- Stopped` (10_state.md R32). -/
def State.halt (s : State) : State := { s with run := .stopped }

/-- The sequencer after a successful instruction other than jump, call and return: `pc <- pc + 1`, and the count
(40_engine_cycle.md R145, R146). -/
def State.retire (s : State) : State := (s.setPc (s.pc + 1)).count

/-- The end of a step whose pseudocode started in `s` and gave `r` (40_engine_cycle.md R141, R144): `next` is what the
sequencer does after success; an error raised aborts from `s`, so that none of the pseudocode's writes is kept. -/
def State.endStep (s : State) (next : State → State) (r : Except Halt State) : Result :=
  match r with
  | .ok t => .next (next t)
  | .error (.raise e) => .next (s.abort (.execute e))
  | .error (.fault f) => .fault f

/-- The end of a step of an instruction that leaves `pc` to the sequencer (40_engine_cycle.md R145). -/
def State.finish (s : State) (r : Except Halt State) : Result := s.endStep State.retire r

/-- The end of a step of jump, call or return, which set `pc` themselves (40_engine_cycle.md R145). -/
def State.finishRedirected (s : State) (r : Except Halt State) : Result := s.endStep State.count r

/-! ### Output -/

/-- The answer the output collaborator gives to the next emission: the one the environment has fixed, else a free
value, a fresh one for each emission of the run (46_print.md R250; 93_implementation_defined.md U9). -/
def State.nextAnswer (s : State) : SinkAnswer :=
  match s.answers with
  | a :: _ => a
  | [] => Config.sinkAnswer s.events.length

/-- The event handed over: recorded for good, since events "already emitted are not retracted" (46_print.md R250), and
its answer used up. -/
def State.record (s : State) (e : Event) : State :=
  { s with events := s.events ++ [e], answers := s.answers.tail }

/-- `if emit E = io_fault(msg): raise IO(msg)`, then the sequencer (46_print.md R251, R252; 44_control_transfer.md R223).
`s` is the state before the step's writes, `t` the state with them; the event stays recorded in either case. -/
def State.emitThenRetire (s t : State) (e : Event) : State :=
  match s.nextAnswer with
  | .ok => (t.record e).retire
  | .ioFault msg => (s.record e).abort (.execute (.io msg))

/-- The read-only view of the stack below `min(x[SP], STACK_CAP)` (46_print.md R250, R252). -/
def State.stackView (s : State) : StackView :=
  let limit := min s.spNat s.config.stackCap
  { limit := limit, bytes := { cells := s.stk.cells.filter fun c => decide (c.1 < limit) } }

/-- One byte of a view; none at or beyond its limit (46_print.md R250). -/
def StackView.read (v : StackView) (a : Nat) : Option Byte :=
  if a < v.limit then some (v.bytes.read a) else none

/-! ### Fetch and the end of input -/

/-- `Fetch(pc)`: `PROG[pc]` when `pc < PROG_LEN`, else end of input (20_memory.md R66, 40_engine_cycle.md R142). -/
def State.fetch (s : State) : Option Line := s.config.prog[s.pc.toNat]?

/-- `ImplicitStop()` (40_engine_cycle.md R147): stopped, with the count report if configured; `pc` and `icount` stay, and
`err` stays as it is unless the report faults. -/
def State.implicitStop (s : State) : State :=
  if s.config.reportCount then
    match s.nextAnswer with
    | .ok => s.halt.record (.countReport s.icount)
    | .ioFault msg => (s.halt.record (.countReport s.icount)).abort (.execute (.io msg))
  else s.halt

/-- A program with an instruction put at an index; indices below it that had no instruction get the word 0, `stop`. -/
def placeLine : List Line → Nat → Line → List Line
  | [], 0, line => [line]
  | [], n + 1, line => .word 0 :: placeLine [] n line
  | _ :: rest, 0, line => line :: rest
  | l :: rest, n + 1, line => l :: placeLine rest n line

/-! ### Error codes -/

/-- The numeric code of the error latch (60_exceptions.md R261, decision D25). -/
def errorCode : Option Error → Nat
  | none => 0
  | some (.decode (.unknownOpcode _)) => 1
  | some (.decode (.wrongArity _)) => 2
  | some (.decode (.invalidRegister _)) => 3
  | some (.decode (.invalidOperand _ _)) => 4
  | some (.execute .divideByZero) => 5
  | some (.execute (.invalidRegisterCast _)) => 6
  | some (.execute .stackOverflow) => 7
  | some (.execute .stackUnderflow) => 8
  | some (.execute (.io _)) => 9

end Sys2Proof.Machine
end

