-- ==== Sys2Proof/Machine/Operands.lean ====
section
/-! DEFINITION. The operand resolver (spec/40_engine_cycle.md R150). -/

namespace Sys2Proof.Machine

/-- `resolve(opd, W)` (40_engine_cycle.md R150): a literal as it stands, a register by a narrowing read. It never fails
and writes nothing. A literal above `MAX_W`, which no decoder delivers, is cut to its low W bits (DESIGN CHOICE, safe,
log entry 9). -/
def State.resolve (s : State) (src : Operand) (w : Width) : BitVec w.bits :=
  match src with
  | .reg r => s.rdreg r w
  | .imm v => v.setWidth w.bits

end Sys2Proof.Machine
end

