-- ==== Sys2Proof/Machine/Flags.lean ====
section
/-! DEFINITION. The flag rule (spec/40_engine_cycle.md R152) and the width-specific operations with their overflow
indicators (spec/42_arithmetic.md R180 to R185, spec/43_logic_compare.md R200 to R204): operands are read as unbounded
integers, the exact result is computed and then narrowed. -/

namespace Sys2Proof.Machine

/-- `F.Z <- (r = 0)`, `F.S <- r[W-1]`, `F.V <- ovf` (40_engine_cycle.md R152). -/
def flagsOf (bits : Nat) (r : BitVec bits) (ovf : Bool) : Flags :=
  { z := decide (r.toNat = 0), v := ovf, s := r.msb }

/-- `setflags(W, r, ovf)`: all three flags overwritten (40_engine_cycle.md R152). -/
def State.setflags (s : State) (w : Width) (r : BitVec w.bits) (ovf : Bool) : State :=
  { s with flags := flagsOf w.bits r ovf }

/-- A width-specific operation `op_W(a, b) = (r, ovf)`, which may raise an execute error (40_engine_cycle.md R151). -/
abbrev AluOp := (bits : Nat) → BitVec bits → BitVec bits → Except ExecError (BitVec bits × Bool)

/-- `add_W` (42_arithmetic.md R181): overflow is carry out. -/
def aluAdd : AluOp := fun bits a b =>
  let sum := a.toNat + b.toNat
  .ok (BitVec.ofNat bits sum, decide (maxOfBits bits < sum))

/-- `sub_W` (42_arithmetic.md R182): overflow is borrow. -/
def aluSub : AluOp := fun bits a b =>
  if b.toNat ≤ a.toNat then .ok (BitVec.ofNat bits (a.toNat - b.toNat), false)
  else .ok (BitVec.ofNat bits (a.toNat + 2 ^ bits - b.toNat), true)

/-- `mul_W` (42_arithmetic.md R183): overflow is a product above `MAX_W`. -/
def aluMul : AluOp := fun bits a b =>
  let product := a.toNat * b.toNat
  .ok (BitVec.ofNat bits product, decide (maxOfBits bits < product))

/-- `div_W` (42_arithmetic.md R184): floor of the quotient; a zero divisor is an error. -/
def aluDiv : AluOp := fun bits a b =>
  if b.toNat = 0 then .error .divideByZero else .ok (BitVec.ofNat bits (a.toNat / b.toNat), false)

/-- `rem_W` (42_arithmetic.md R185): the non-negative remainder; a zero divisor is an error. -/
def aluRem : AluOp := fun bits a b =>
  if b.toNat = 0 then .error .divideByZero else .ok (BitVec.ofNat bits (a.toNat % b.toNat), false)

/-- `and_W` (43_logic_compare.md R201, R200: no overflow). -/
def aluAnd : AluOp := fun _ a b => .ok (a &&& b, false)

/-- `or_W` (43_logic_compare.md R202, R200: no overflow). -/
def aluOr : AluOp := fun _ a b => .ok (a ||| b, false)

/-- `xor_W` (43_logic_compare.md R203, R200: no overflow). -/
def aluXor : AluOp := fun _ a b => .ok (a ^^^ b, false)

/-- The complement on W bits, `MAX_W - a` (43_logic_compare.md R204). -/
def aluNot (bits : Nat) (a : BitVec bits) : BitVec bits := BitVec.ofNat bits (maxOfBits bits - a.toNat)

/-- `ALU2(op, W, rd, src)` (40_engine_cycle.md R151): both reads, the operation, the zero-extending write, the flags. -/
def State.alu2 (s : State) (op : AluOp) (w : Width) (rd : Reg) (src : Operand) : Except Halt State :=
  match op w.bits (s.rdreg rd w) (s.resolve src w) with
  | .error e => .error (.raise e)
  | .ok (r, ovf) => .ok ((s.wrreg rd w r).setflags w r ovf)

/-- The template without the write, for test and compare (43_logic_compare.md R205, R206). -/
def State.aluFlags (s : State) (op : AluOp) (w : Width) (ra : Reg) (src : Operand) : Except Halt State :=
  match op w.bits (s.rdreg ra w) (s.resolve src w) with
  | .error e => .error (.raise e)
  | .ok (r, ovf) => .ok (s.setflags w r ovf)

end Sys2Proof.Machine
end

