-- ==== Sys2Proof/Machine/Arithmetic.lean ====
section
/-! DEFINITION. Arithmetic (spec/42_arithmetic.md). One meaning per constructor, each one line over the rule's shared
operation. -/

namespace Sys2Proof.Machine

/-! ### add (R181) -/

/-- Addition(W, rd, src) (42_arithmetic.md R181). -/
def addition (w : Width) (rd : Reg) (src : Operand) (s : State) : Result :=
  s.finish (s.alu2 aluAdd w rd src)

def execAddByteR (rd : Reg) (rs : Reg) (s : State) : Result := addition .byte rd (.reg rs) s
def execAddByteI (rd : Reg) (imm : Word) (s : State) : Result := addition .byte rd (.imm imm) s
def execAddQuarterR (rd : Reg) (rs : Reg) (s : State) : Result := addition .quarter rd (.reg rs) s
def execAddQuarterI (rd : Reg) (imm : Word) (s : State) : Result := addition .quarter rd (.imm imm) s
def execAddHalfR (rd : Reg) (rs : Reg) (s : State) : Result := addition .half rd (.reg rs) s
def execAddHalfI (rd : Reg) (imm : Word) (s : State) : Result := addition .half rd (.imm imm) s
def execAddWordR (rd : Reg) (rs : Reg) (s : State) : Result := addition .word rd (.reg rs) s
def execAddWordI (rd : Reg) (imm : Word) (s : State) : Result := addition .word rd (.imm imm) s

/-! ### sub (R182) -/

/-- Subtraction(W, rd, src) (42_arithmetic.md R182). -/
def subtraction (w : Width) (rd : Reg) (src : Operand) (s : State) : Result :=
  s.finish (s.alu2 aluSub w rd src)

def execSubByteR (rd : Reg) (rs : Reg) (s : State) : Result := subtraction .byte rd (.reg rs) s
def execSubByteI (rd : Reg) (imm : Word) (s : State) : Result := subtraction .byte rd (.imm imm) s
def execSubQuarterR (rd : Reg) (rs : Reg) (s : State) : Result := subtraction .quarter rd (.reg rs) s
def execSubQuarterI (rd : Reg) (imm : Word) (s : State) : Result := subtraction .quarter rd (.imm imm) s
def execSubHalfR (rd : Reg) (rs : Reg) (s : State) : Result := subtraction .half rd (.reg rs) s
def execSubHalfI (rd : Reg) (imm : Word) (s : State) : Result := subtraction .half rd (.imm imm) s
def execSubWordR (rd : Reg) (rs : Reg) (s : State) : Result := subtraction .word rd (.reg rs) s
def execSubWordI (rd : Reg) (imm : Word) (s : State) : Result := subtraction .word rd (.imm imm) s

/-! ### mul (R183) -/

/-- Multiplication(W, rd, src) (42_arithmetic.md R183). -/
def multiplication (w : Width) (rd : Reg) (src : Operand) (s : State) : Result :=
  s.finish (s.alu2 aluMul w rd src)

def execMulByteR (rd : Reg) (rs : Reg) (s : State) : Result := multiplication .byte rd (.reg rs) s
def execMulByteI (rd : Reg) (imm : Word) (s : State) : Result := multiplication .byte rd (.imm imm) s
def execMulQuarterR (rd : Reg) (rs : Reg) (s : State) : Result := multiplication .quarter rd (.reg rs) s
def execMulQuarterI (rd : Reg) (imm : Word) (s : State) : Result := multiplication .quarter rd (.imm imm) s
def execMulHalfR (rd : Reg) (rs : Reg) (s : State) : Result := multiplication .half rd (.reg rs) s
def execMulHalfI (rd : Reg) (imm : Word) (s : State) : Result := multiplication .half rd (.imm imm) s
def execMulWordR (rd : Reg) (rs : Reg) (s : State) : Result := multiplication .word rd (.reg rs) s
def execMulWordI (rd : Reg) (imm : Word) (s : State) : Result := multiplication .word rd (.imm imm) s

/-! ### div (R184) -/

/-- Division(W, rd, src) (42_arithmetic.md R184). A zero divisor aborts with DivideByZero. -/
def division (w : Width) (rd : Reg) (src : Operand) (s : State) : Result :=
  s.finish (s.alu2 aluDiv w rd src)

def execDivByteR (rd : Reg) (rs : Reg) (s : State) : Result := division .byte rd (.reg rs) s
def execDivByteI (rd : Reg) (imm : Word) (s : State) : Result := division .byte rd (.imm imm) s
def execDivQuarterR (rd : Reg) (rs : Reg) (s : State) : Result := division .quarter rd (.reg rs) s
def execDivQuarterI (rd : Reg) (imm : Word) (s : State) : Result := division .quarter rd (.imm imm) s
def execDivHalfR (rd : Reg) (rs : Reg) (s : State) : Result := division .half rd (.reg rs) s
def execDivHalfI (rd : Reg) (imm : Word) (s : State) : Result := division .half rd (.imm imm) s
def execDivWordR (rd : Reg) (rs : Reg) (s : State) : Result := division .word rd (.reg rs) s
def execDivWordI (rd : Reg) (imm : Word) (s : State) : Result := division .word rd (.imm imm) s

/-! ### rem (R185) -/

/-- Remainder(W, rd, src) (42_arithmetic.md R185). A zero divisor aborts with DivideByZero. -/
def remainder (w : Width) (rd : Reg) (src : Operand) (s : State) : Result :=
  s.finish (s.alu2 aluRem w rd src)

def execRemByteR (rd : Reg) (rs : Reg) (s : State) : Result := remainder .byte rd (.reg rs) s
def execRemByteI (rd : Reg) (imm : Word) (s : State) : Result := remainder .byte rd (.imm imm) s
def execRemQuarterR (rd : Reg) (rs : Reg) (s : State) : Result := remainder .quarter rd (.reg rs) s
def execRemQuarterI (rd : Reg) (imm : Word) (s : State) : Result := remainder .quarter rd (.imm imm) s
def execRemHalfR (rd : Reg) (rs : Reg) (s : State) : Result := remainder .half rd (.reg rs) s
def execRemHalfI (rd : Reg) (imm : Word) (s : State) : Result := remainder .half rd (.imm imm) s
def execRemWordR (rd : Reg) (rs : Reg) (s : State) : Result := remainder .word rd (.reg rs) s
def execRemWordI (rd : Reg) (imm : Word) (s : State) : Result := remainder .word rd (.imm imm) s

end Sys2Proof.Machine
end

