-- ==== Sys2Proof/Machine/Control.lean ====
section
/-! DEFINITION. Control transfer (spec/44_control_transfer.md): jump, call, return, stop. -/

namespace Sys2Proof.Machine

/-! ### jump (R220) -/

/-- Jump(target) (44_control_transfer.md R220): `pc` becomes the resolved 64-bit operand. -/
def jump (target : Operand) (s : State) : Result :=
  s.finishRedirected (.ok (s.setPc (s.resolve target .word)))

def execJumpR (rs : Reg) (s : State) : Result := jump (.reg rs) s
def execJumpI (imm : Word) (s : State) : Result := jump (.imm imm) s

/-! ### call (R221) -/

/-- Call(target) (44_control_transfer.md R221): the target is resolved first; the call's own index is pushed at Word
width; then `pc` becomes the target. -/
def call (target : Operand) (s : State) : Result :=
  let t := s.resolve target .word
  match s.pushBytes 8 s.pc.toNat with
  | .error h => s.finishRedirected (.error h)
  | .ok s1 => s.finishRedirected (.ok (s1.setPc t))

def execCallR (rs : Reg) (s : State) : Result := call (.reg rs) s
def execCallI (imm : Word) (s : State) : Result := call (.imm imm) s

/-! ### return (R222) -/

/-- Return() (44_control_transfer.md R222): pops a Word and resumes at the popped value plus one, modulo 2^64
(90_conflicts.md C1, decisions D15, D16). -/
def execRet (s : State) : Result :=
  match s.popBytes 8 with
  | .error h => s.finishRedirected (.error h)
  | .ok (v, s1) => s.finishRedirected (.ok (s1.setPc (BitVec.ofNat 64 v + 1)))

/-! ### stop (R223) -/

/-- Stop() (44_control_transfer.md R223): `run` becomes Stopped; if configured, the count as it stands is reported, and a
fault of the report aborts with IO; then the sequencer advances `pc` and the count. -/
def execStop (s : State) : Result :=
  if s.config.reportCount then .next (s.emitThenRetire s.halt (.countReport s.icount))
  else s.finish (.ok s.halt)

end Sys2Proof.Machine
end

