-- ==== Sys2Proof/Machine/Logic.lean ====
section
/-! DEFINITION. Logic and comparison (spec/43_logic_compare.md). One meaning per constructor, each one line over the
rule's shared operation. -/

namespace Sys2Proof.Machine

/-! ### and (R201) -/

/-- And(W, rd, src) (43_logic_compare.md R201). -/
def bitAnd (w : Width) (rd : Reg) (src : Operand) (s : State) : Result :=
  s.finish (s.alu2 aluAnd w rd src)

def execAndByteR (rd : Reg) (rs : Reg) (s : State) : Result := bitAnd .byte rd (.reg rs) s
def execAndByteI (rd : Reg) (imm : Word) (s : State) : Result := bitAnd .byte rd (.imm imm) s
def execAndQuarterR (rd : Reg) (rs : Reg) (s : State) : Result := bitAnd .quarter rd (.reg rs) s
def execAndQuarterI (rd : Reg) (imm : Word) (s : State) : Result := bitAnd .quarter rd (.imm imm) s
def execAndHalfR (rd : Reg) (rs : Reg) (s : State) : Result := bitAnd .half rd (.reg rs) s
def execAndHalfI (rd : Reg) (imm : Word) (s : State) : Result := bitAnd .half rd (.imm imm) s
def execAndWordR (rd : Reg) (rs : Reg) (s : State) : Result := bitAnd .word rd (.reg rs) s
def execAndWordI (rd : Reg) (imm : Word) (s : State) : Result := bitAnd .word rd (.imm imm) s

/-! ### or (R202) -/

/-- Or(W, rd, src) (43_logic_compare.md R202). -/
def bitOr (w : Width) (rd : Reg) (src : Operand) (s : State) : Result :=
  s.finish (s.alu2 aluOr w rd src)

def execOrByteR (rd : Reg) (rs : Reg) (s : State) : Result := bitOr .byte rd (.reg rs) s
def execOrByteI (rd : Reg) (imm : Word) (s : State) : Result := bitOr .byte rd (.imm imm) s
def execOrQuarterR (rd : Reg) (rs : Reg) (s : State) : Result := bitOr .quarter rd (.reg rs) s
def execOrQuarterI (rd : Reg) (imm : Word) (s : State) : Result := bitOr .quarter rd (.imm imm) s
def execOrHalfR (rd : Reg) (rs : Reg) (s : State) : Result := bitOr .half rd (.reg rs) s
def execOrHalfI (rd : Reg) (imm : Word) (s : State) : Result := bitOr .half rd (.imm imm) s
def execOrWordR (rd : Reg) (rs : Reg) (s : State) : Result := bitOr .word rd (.reg rs) s
def execOrWordI (rd : Reg) (imm : Word) (s : State) : Result := bitOr .word rd (.imm imm) s

/-! ### xor (R203) -/

/-- Xor(W, rd, src) (43_logic_compare.md R203). -/
def bitXor (w : Width) (rd : Reg) (src : Operand) (s : State) : Result :=
  s.finish (s.alu2 aluXor w rd src)

def execXorByteR (rd : Reg) (rs : Reg) (s : State) : Result := bitXor .byte rd (.reg rs) s
def execXorByteI (rd : Reg) (imm : Word) (s : State) : Result := bitXor .byte rd (.imm imm) s
def execXorQuarterR (rd : Reg) (rs : Reg) (s : State) : Result := bitXor .quarter rd (.reg rs) s
def execXorQuarterI (rd : Reg) (imm : Word) (s : State) : Result := bitXor .quarter rd (.imm imm) s
def execXorHalfR (rd : Reg) (rs : Reg) (s : State) : Result := bitXor .half rd (.reg rs) s
def execXorHalfI (rd : Reg) (imm : Word) (s : State) : Result := bitXor .half rd (.imm imm) s
def execXorWordR (rd : Reg) (rs : Reg) (s : State) : Result := bitXor .word rd (.reg rs) s
def execXorWordI (rd : Reg) (imm : Word) (s : State) : Result := bitXor .word rd (.imm imm) s

/-! ### not (R204) -/

/-- Not(W, rd) (43_logic_compare.md R204): the low W bits inverted, the upper bits cleared, overflow false. -/
def bitNot (w : Width) (rd : Reg) (s : State) : Result :=
  let r := aluNot w.bits (s.rdreg rd w)
  s.finish (.ok ((s.wrreg rd w r).setflags w r false))

def execNotByte (rd : Reg) (s : State) : Result := bitNot .byte rd s
def execNotQuarter (rd : Reg) (s : State) : Result := bitNot .quarter rd s
def execNotHalf (rd : Reg) (s : State) : Result := bitNot .half rd s
def execNotWord (rd : Reg) (s : State) : Result := bitNot .word rd s

/-! ### test (R205) -/

/-- Test(W, ra, src) (43_logic_compare.md R205): the flags of And, no register written. -/
def bitTest (w : Width) (ra : Reg) (src : Operand) (s : State) : Result :=
  s.finish (s.aluFlags aluAnd w ra src)

def execTestByteR (rd : Reg) (rs : Reg) (s : State) : Result := bitTest .byte rd (.reg rs) s
def execTestByteI (rd : Reg) (imm : Word) (s : State) : Result := bitTest .byte rd (.imm imm) s
def execTestQuarterR (rd : Reg) (rs : Reg) (s : State) : Result := bitTest .quarter rd (.reg rs) s
def execTestQuarterI (rd : Reg) (imm : Word) (s : State) : Result := bitTest .quarter rd (.imm imm) s
def execTestHalfR (rd : Reg) (rs : Reg) (s : State) : Result := bitTest .half rd (.reg rs) s
def execTestHalfI (rd : Reg) (imm : Word) (s : State) : Result := bitTest .half rd (.imm imm) s
def execTestWordR (rd : Reg) (rs : Reg) (s : State) : Result := bitTest .word rd (.reg rs) s
def execTestWordI (rd : Reg) (imm : Word) (s : State) : Result := bitTest .word rd (.imm imm) s

/-! ### compare (R206) -/

/-- Compare(W, ra, src) (43_logic_compare.md R206): the flags of Subtraction, no register written. -/
def comparison (w : Width) (ra : Reg) (src : Operand) (s : State) : Result :=
  s.finish (s.aluFlags aluSub w ra src)

def execCompareByteR (rd : Reg) (rs : Reg) (s : State) : Result := comparison .byte rd (.reg rs) s
def execCompareByteI (rd : Reg) (imm : Word) (s : State) : Result := comparison .byte rd (.imm imm) s
def execCompareQuarterR (rd : Reg) (rs : Reg) (s : State) : Result := comparison .quarter rd (.reg rs) s
def execCompareQuarterI (rd : Reg) (imm : Word) (s : State) : Result := comparison .quarter rd (.imm imm) s
def execCompareHalfR (rd : Reg) (rs : Reg) (s : State) : Result := comparison .half rd (.reg rs) s
def execCompareHalfI (rd : Reg) (imm : Word) (s : State) : Result := comparison .half rd (.imm imm) s
def execCompareWordR (rd : Reg) (rs : Reg) (s : State) : Result := comparison .word rd (.reg rs) s
def execCompareWordI (rd : Reg) (imm : Word) (s : State) : Result := comparison .word rd (.imm imm) s

end Sys2Proof.Machine
end

