-- ==== Sys2Proof/Machine/Print.lean ====
section
/-! DEFINITION. Output instructions (spec/46_print.md): print-register and print-stack. -/

namespace Sys2Proof.Machine

/-! ### print-register (R251) -/

/-- PrintRegister(r) (46_print.md R251): the register's index and its whole cell are handed over; only an I/O fault
fails. -/
def execPrintRegister (rd : Reg) (s : State) : Result :=
  .next (s.emitThenRetire s (.printRegister rd.index.val (s.reg rd)))

/-! ### print-stack (R252) -/

/-- PrintStack(n) (46_print.md R252): the resolved operand, the stack pointer and the view of the stack are handed over;
only an I/O fault fails. -/
def printStack (n : Operand) (s : State) : Result :=
  .next (s.emitThenRetire s (.printStack (s.resolve n .word) (s.reg .sp) s.stackView))

def execPrintStackR (rs : Reg) (s : State) : Result := printStack (.reg rs) s
def execPrintStackI (imm : Word) (s : State) : Result := printStack (.imm imm) s

end Sys2Proof.Machine
end

