-- ==== Sys2Proof/Machine/SetFamily.lean ====
section
/-! DEFINITION. The Set family (spec/41_set.md). One meaning per constructor, each one line over the rule's shared
operation. -/

namespace Sys2Proof.Machine

/-! ### set (R170) -/

/-- Set(W, rd, src) (41_set.md R170): no flag is written. -/
def assign (w : Width) (rd : Reg) (src : Operand) (s : State) : Result :=
  s.finish (.ok (s.wrreg rd w (s.resolve src w)))

def execSetByteR (rd : Reg) (rs : Reg) (s : State) : Result := assign .byte rd (.reg rs) s
def execSetByteI (rd : Reg) (imm : Word) (s : State) : Result := assign .byte rd (.imm imm) s
def execSetQuarterR (rd : Reg) (rs : Reg) (s : State) : Result := assign .quarter rd (.reg rs) s
def execSetQuarterI (rd : Reg) (imm : Word) (s : State) : Result := assign .quarter rd (.imm imm) s
def execSetHalfR (rd : Reg) (rs : Reg) (s : State) : Result := assign .half rd (.reg rs) s
def execSetHalfI (rd : Reg) (imm : Word) (s : State) : Result := assign .half rd (.imm imm) s
def execSetWordR (rd : Reg) (rs : Reg) (s : State) : Result := assign .word rd (.reg rs) s
def execSetWordI (rd : Reg) (imm : Word) (s : State) : Result := assign .word rd (.imm imm) s

/-! ### set-indirect (R171) -/

/-- SetIndirect(W, ri, rv) (41_set.md R171): the destination is the register whose index is all 64 bits of `x[ri]`; an
index above 16 raises InvalidRegisterCast with that value. No flag is written. -/
def setIndirect (w : Width) (ri rv : Reg) (s : State) : Result :=
  let id := s.reg ri
  match Reg.ofIndex id.toNat with
  | none => s.finish (.error (.raise (.invalidRegisterCast id)))
  | some rd => s.finish (.ok (s.wrreg rd w (s.rdreg rv w)))

def execSetIndirectByte (ri : Reg) (rv : Reg) (s : State) : Result := setIndirect .byte ri rv s
def execSetIndirectQuarter (ri : Reg) (rv : Reg) (s : State) : Result := setIndirect .quarter ri rv s
def execSetIndirectHalf (ri : Reg) (rv : Reg) (s : State) : Result := setIndirect .half ri rv s
def execSetIndirectWord (ri : Reg) (rv : Reg) (s : State) : Result := setIndirect .word ri rv s

end Sys2Proof.Machine
end

