-- ==== Sys2Proof/Machine/Stack.lean ====
section
/-! DEFINITION. Stack instructions (spec/45_stack.md): push and pop at four widths. -/

namespace Sys2Proof.Machine

/-! ### push (R240) -/

/-- Push(W, rs) (45_stack.md R240): the register is read first, then the check, the write and the pointer's move. -/
def push (w : Width) (rs : Reg) (s : State) : Result :=
  s.finish (s.pushBytes w.bytes (s.rdreg rs w).toNat)

def execPushByte (rd : Reg) (s : State) : Result := push .byte rd s
def execPushQuarter (rd : Reg) (s : State) : Result := push .quarter rd s
def execPushHalf (rd : Reg) (s : State) : Result := push .half rd s
def execPushWord (rd : Reg) (s : State) : Result := push .word rd s

/-! ### pop (R241) -/

/-- Pop(W, rd) (45_stack.md R241): the check, the pointer's move, the read, and last the destination's write, so that
`pop-W sp` leaves the popped value in `sp`. -/
def pop (w : Width) (rd : Reg) (s : State) : Result :=
  match s.popBytes w.bytes with
  | .error h => s.finish (.error h)
  | .ok (v, s1) => s.finish (.ok (s1.wrreg rd w (BitVec.ofNat w.bits v)))

def execPopByte (rd : Reg) (s : State) : Result := pop .byte rd s
def execPopQuarter (rd : Reg) (s : State) : Result := pop .quarter rd s
def execPopHalf (rd : Reg) (s : State) : Result := pop .half rd s
def execPopWord (rd : Reg) (s : State) : Result := pop .word rd s

end Sys2Proof.Machine
end

