-- ==== Sys2Proof/Machine/Dispatch.lean ====
section
/-! DEFINITION. Execute dispatch (spec/40_engine_cycle.md R144): one arm per constructor of `Instr`, each one direct
call of the meaning of that instruction. -/

namespace Sys2Proof.Machine

def exec (i : Instr) (s : State) : Host.Outcome State Fault Refusal :=
  match i with
  | .stop => Sys2Proof.Machine.execStop s
  | .setByteR rd rs => Sys2Proof.Machine.execSetByteR rd rs s
  | .setByteI rd imm => Sys2Proof.Machine.execSetByteI rd imm s
  | .setQuarterR rd rs => Sys2Proof.Machine.execSetQuarterR rd rs s
  | .setQuarterI rd imm => Sys2Proof.Machine.execSetQuarterI rd imm s
  | .setHalfR rd rs => Sys2Proof.Machine.execSetHalfR rd rs s
  | .setHalfI rd imm => Sys2Proof.Machine.execSetHalfI rd imm s
  | .setWordR rd rs => Sys2Proof.Machine.execSetWordR rd rs s
  | .setWordI rd imm => Sys2Proof.Machine.execSetWordI rd imm s
  | .addByteR rd rs => Sys2Proof.Machine.execAddByteR rd rs s
  | .addByteI rd imm => Sys2Proof.Machine.execAddByteI rd imm s
  | .addQuarterR rd rs => Sys2Proof.Machine.execAddQuarterR rd rs s
  | .addQuarterI rd imm => Sys2Proof.Machine.execAddQuarterI rd imm s
  | .addHalfR rd rs => Sys2Proof.Machine.execAddHalfR rd rs s
  | .addHalfI rd imm => Sys2Proof.Machine.execAddHalfI rd imm s
  | .addWordR rd rs => Sys2Proof.Machine.execAddWordR rd rs s
  | .addWordI rd imm => Sys2Proof.Machine.execAddWordI rd imm s
  | .subByteR rd rs => Sys2Proof.Machine.execSubByteR rd rs s
  | .subByteI rd imm => Sys2Proof.Machine.execSubByteI rd imm s
  | .subQuarterR rd rs => Sys2Proof.Machine.execSubQuarterR rd rs s
  | .subQuarterI rd imm => Sys2Proof.Machine.execSubQuarterI rd imm s
  | .subHalfR rd rs => Sys2Proof.Machine.execSubHalfR rd rs s
  | .subHalfI rd imm => Sys2Proof.Machine.execSubHalfI rd imm s
  | .subWordR rd rs => Sys2Proof.Machine.execSubWordR rd rs s
  | .subWordI rd imm => Sys2Proof.Machine.execSubWordI rd imm s
  | .mulByteR rd rs => Sys2Proof.Machine.execMulByteR rd rs s
  | .mulByteI rd imm => Sys2Proof.Machine.execMulByteI rd imm s
  | .mulQuarterR rd rs => Sys2Proof.Machine.execMulQuarterR rd rs s
  | .mulQuarterI rd imm => Sys2Proof.Machine.execMulQuarterI rd imm s
  | .mulHalfR rd rs => Sys2Proof.Machine.execMulHalfR rd rs s
  | .mulHalfI rd imm => Sys2Proof.Machine.execMulHalfI rd imm s
  | .mulWordR rd rs => Sys2Proof.Machine.execMulWordR rd rs s
  | .mulWordI rd imm => Sys2Proof.Machine.execMulWordI rd imm s
  | .divByteR rd rs => Sys2Proof.Machine.execDivByteR rd rs s
  | .divByteI rd imm => Sys2Proof.Machine.execDivByteI rd imm s
  | .divQuarterR rd rs => Sys2Proof.Machine.execDivQuarterR rd rs s
  | .divQuarterI rd imm => Sys2Proof.Machine.execDivQuarterI rd imm s
  | .divHalfR rd rs => Sys2Proof.Machine.execDivHalfR rd rs s
  | .divHalfI rd imm => Sys2Proof.Machine.execDivHalfI rd imm s
  | .divWordR rd rs => Sys2Proof.Machine.execDivWordR rd rs s
  | .divWordI rd imm => Sys2Proof.Machine.execDivWordI rd imm s
  | .remByteR rd rs => Sys2Proof.Machine.execRemByteR rd rs s
  | .remByteI rd imm => Sys2Proof.Machine.execRemByteI rd imm s
  | .remQuarterR rd rs => Sys2Proof.Machine.execRemQuarterR rd rs s
  | .remQuarterI rd imm => Sys2Proof.Machine.execRemQuarterI rd imm s
  | .remHalfR rd rs => Sys2Proof.Machine.execRemHalfR rd rs s
  | .remHalfI rd imm => Sys2Proof.Machine.execRemHalfI rd imm s
  | .remWordR rd rs => Sys2Proof.Machine.execRemWordR rd rs s
  | .remWordI rd imm => Sys2Proof.Machine.execRemWordI rd imm s
  | .pushByte rd => Sys2Proof.Machine.execPushByte rd s
  | .pushQuarter rd => Sys2Proof.Machine.execPushQuarter rd s
  | .pushHalf rd => Sys2Proof.Machine.execPushHalf rd s
  | .pushWord rd => Sys2Proof.Machine.execPushWord rd s
  | .popByte rd => Sys2Proof.Machine.execPopByte rd s
  | .popQuarter rd => Sys2Proof.Machine.execPopQuarter rd s
  | .popHalf rd => Sys2Proof.Machine.execPopHalf rd s
  | .popWord rd => Sys2Proof.Machine.execPopWord rd s
  | .callR rs => Sys2Proof.Machine.execCallR rs s
  | .callI imm => Sys2Proof.Machine.execCallI imm s
  | .ret => Sys2Proof.Machine.execRet s
  | .andByteR rd rs => Sys2Proof.Machine.execAndByteR rd rs s
  | .andByteI rd imm => Sys2Proof.Machine.execAndByteI rd imm s
  | .andQuarterR rd rs => Sys2Proof.Machine.execAndQuarterR rd rs s
  | .andQuarterI rd imm => Sys2Proof.Machine.execAndQuarterI rd imm s
  | .andHalfR rd rs => Sys2Proof.Machine.execAndHalfR rd rs s
  | .andHalfI rd imm => Sys2Proof.Machine.execAndHalfI rd imm s
  | .andWordR rd rs => Sys2Proof.Machine.execAndWordR rd rs s
  | .andWordI rd imm => Sys2Proof.Machine.execAndWordI rd imm s
  | .orByteR rd rs => Sys2Proof.Machine.execOrByteR rd rs s
  | .orByteI rd imm => Sys2Proof.Machine.execOrByteI rd imm s
  | .orQuarterR rd rs => Sys2Proof.Machine.execOrQuarterR rd rs s
  | .orQuarterI rd imm => Sys2Proof.Machine.execOrQuarterI rd imm s
  | .orHalfR rd rs => Sys2Proof.Machine.execOrHalfR rd rs s
  | .orHalfI rd imm => Sys2Proof.Machine.execOrHalfI rd imm s
  | .orWordR rd rs => Sys2Proof.Machine.execOrWordR rd rs s
  | .orWordI rd imm => Sys2Proof.Machine.execOrWordI rd imm s
  | .xorByteR rd rs => Sys2Proof.Machine.execXorByteR rd rs s
  | .xorByteI rd imm => Sys2Proof.Machine.execXorByteI rd imm s
  | .xorQuarterR rd rs => Sys2Proof.Machine.execXorQuarterR rd rs s
  | .xorQuarterI rd imm => Sys2Proof.Machine.execXorQuarterI rd imm s
  | .xorHalfR rd rs => Sys2Proof.Machine.execXorHalfR rd rs s
  | .xorHalfI rd imm => Sys2Proof.Machine.execXorHalfI rd imm s
  | .xorWordR rd rs => Sys2Proof.Machine.execXorWordR rd rs s
  | .xorWordI rd imm => Sys2Proof.Machine.execXorWordI rd imm s
  | .notByte rd => Sys2Proof.Machine.execNotByte rd s
  | .notQuarter rd => Sys2Proof.Machine.execNotQuarter rd s
  | .notHalf rd => Sys2Proof.Machine.execNotHalf rd s
  | .notWord rd => Sys2Proof.Machine.execNotWord rd s
  | .testByteR rd rs => Sys2Proof.Machine.execTestByteR rd rs s
  | .testByteI rd imm => Sys2Proof.Machine.execTestByteI rd imm s
  | .testQuarterR rd rs => Sys2Proof.Machine.execTestQuarterR rd rs s
  | .testQuarterI rd imm => Sys2Proof.Machine.execTestQuarterI rd imm s
  | .testHalfR rd rs => Sys2Proof.Machine.execTestHalfR rd rs s
  | .testHalfI rd imm => Sys2Proof.Machine.execTestHalfI rd imm s
  | .testWordR rd rs => Sys2Proof.Machine.execTestWordR rd rs s
  | .testWordI rd imm => Sys2Proof.Machine.execTestWordI rd imm s
  | .compareByteR rd rs => Sys2Proof.Machine.execCompareByteR rd rs s
  | .compareByteI rd imm => Sys2Proof.Machine.execCompareByteI rd imm s
  | .compareQuarterR rd rs => Sys2Proof.Machine.execCompareQuarterR rd rs s
  | .compareQuarterI rd imm => Sys2Proof.Machine.execCompareQuarterI rd imm s
  | .compareHalfR rd rs => Sys2Proof.Machine.execCompareHalfR rd rs s
  | .compareHalfI rd imm => Sys2Proof.Machine.execCompareHalfI rd imm s
  | .compareWordR rd rs => Sys2Proof.Machine.execCompareWordR rd rs s
  | .compareWordI rd imm => Sys2Proof.Machine.execCompareWordI rd imm s
  | .jumpR rs => Sys2Proof.Machine.execJumpR rs s
  | .jumpI imm => Sys2Proof.Machine.execJumpI imm s
  | .printRegister rd => Sys2Proof.Machine.execPrintRegister rd s
  | .printStackR rs => Sys2Proof.Machine.execPrintStackR rs s
  | .printStackI imm => Sys2Proof.Machine.execPrintStackI imm s
  | .setIndirectByte ri rv => Sys2Proof.Machine.execSetIndirectByte ri rv s
  | .setIndirectQuarter ri rv => Sys2Proof.Machine.execSetIndirectQuarter ri rv s
  | .setIndirectHalf ri rv => Sys2Proof.Machine.execSetIndirectHalf ri rv s
  | .setIndirectWord ri rv => Sys2Proof.Machine.execSetIndirectWord ri rv s

end Sys2Proof.Machine
end

