-- ==== Sys2Proof/Machine/Step.lean ====
section
/-! DEFINITION. The step cycle (spec/40_engine_cycle.md R140, R141), and the placing of one instruction word where the
next step fetches. -/

namespace Sys2Proof.Machine

/-- `Step()` (40_engine_cycle.md R141): a stopped engine does nothing (R148); end of input is an implicit stop (R147); a
decode failure aborts (60_exceptions.md R262); otherwise the decoded instruction is executed, whose meaning ends with
what the sequencer does (R145, R146). -/
def step (s : State) : Host.Outcome State Fault Refusal :=
  match s.run with
  | .stopped => .next s
  | .running =>
    match s.fetch with
    | none => .next s.implicitStop
    | some line =>
      match decodeLine line with
      | .error e => .next (s.abort (.decode e))
      | .ok i => exec i s

/-- The state with the instruction word `w` at the index `pc` of the program, and running, so that the very next step
fetches and runs it: what the external loader does before a run (20_memory.md R66; log entry 2). -/
def State.withFetchWord (s : State) (nbits w : Nat) : State :=
  { s with
    run := .running
    config := { s.config with
      prog := placeLine s.config.prog s.pc.toNat (.word (BitVec.ofNat 80 (w % 2 ^ nbits))) } }

end Sys2Proof.Machine
end

