-- ==== Sys2Proof/Safety.lean ====
section
/-! DEFINITION. What counts as a safe state and a finished run (spec/70_reset_and_hazards.md R310), the invariant of the
states a run can reach, and the words the statements use for classes of instructions and operand values. -/

namespace Sys2Proof.Machine

/-- The run has ended and completed: stopped with no error (70_reset_and_hazards.md R310). -/
abbrev State.Completed (s : State) : Prop := s.run = .stopped ∧ s.err = none

/-- The run has aborted: stopped with an error (70_reset_and_hazards.md R310; a fault state by 60_exceptions.md R282). -/
abbrev State.Aborted (s : State) : Prop := s.run = .stopped ∧ s.err ≠ none

/-- What every state of a run satisfies: the stack buffer is in canonical form and lies inside `[0, STACK_CAP)`
(20_memory.md R60), a running engine has no error latched (10_state.md R33), and the parameters are within the bounds
of 00_scope.md R6. -/
abbrev State.Inv (s : State) : Prop :=
  s.stk.wf ∧ (∀ c ∈ s.stk.cells, c.1 < s.config.stackCap) ∧ (s.run = .running → s.err = none) ∧ s.config.wf

/-- The value of a register at a width, as an unbounded integer (00_scope.md R7, 10_state.md R23). -/
def State.regValue (s : State) (r : Reg) (w : Width) : Nat := (s.reg r).toNat % 2 ^ w.bits

/-- The value of a well-formed operand at a width, as an unbounded integer (40_engine_cycle.md R150). -/
def State.operandValue (s : State) (src : Operand) (w : Width) : Nat :=
  match src with
  | .reg r => s.regValue r w
  | .imm v => v.toNat

/-- The state with register `r` holding the number `v` (below 2^64) and every other register as before. -/
def State.withReg (s : State) (r : Reg) (v : Nat) : State := { s with regs := s.regs.set r.index (BitVec.ofNat 64 v) }

/-- The three flags of a W-bit result given as a number, written from 40_engine_cycle.md R152. -/
def flagsOfNat (w : Width) (r : Nat) (ovf : Bool) : Flags :=
  { z := decide (r = 0), v := ovf, s := decide (2 ^ (w.bits - 1) ≤ r) }

/-- The state after the sequencer's work on a non-redirecting instruction (40_engine_cycle.md R145, R146). -/
def State.advanced (s : State) : State := { s with pc := s.pc + 1, icount := s.icount + 1 }

end Sys2Proof.Machine

namespace Sys2Proof

/-- The instruction `op-W rd src` of shape RO, whichever of its constructors that is (30_encoding.md R91). -/
def Instr.binary (o : BinOp) (w : Width) (rd : Reg) (src : Operand) : Instr := Instr.ofForm (.binary o w rd src)

/-- The instruction `op-W rd` of shape R (30_encoding.md R91). -/
def Instr.unary (o : UnOp) (w : Width) (rd : Reg) : Instr := Instr.ofForm (.unary o w rd)

/-- The instruction `op src` of shape O (30_encoding.md R91). -/
def Instr.target (o : TargetOp) (src : Operand) : Instr := Instr.ofForm (.target o src)

/-- The instruction `set-indirect-W ri rv` (30_encoding.md R91). -/
def Instr.setIndirect (w : Width) (ri rv : Reg) : Instr := Instr.ofForm (.setIndirect w ri rv)

/-- The operations that write the flags (10_state.md R30). -/
def Opcode.writesFlags : Opcode → Bool
  | .binary .set => false
  | .binary _ => true
  | .unary .not => true
  | _ => false

/-- The operations that set `pc` themselves (40_engine_cycle.md R145). -/
def Opcode.redirects : Opcode → Bool
  | .target .jump => true
  | .target .call => true
  | .ret => true
  | _ => false

/-- The number of bytes an instruction stores to the stack buffer, at `x[SP]` (10_state.md R37: push and call only). -/
def Form.storeBytes : Form → Nat
  | .unary .push w _ => w.bytes
  | .target .call _ => 8
  | _ => 0

/-- The registers an instruction may write (10_state.md R22, R25): its destination, the stack pointer for the four stack
instructions, and for set-indirect the register that the index register names in `s`. -/
def Form.mayWrite (s : Machine.State) (r : Reg) : Form → Bool
  | .stop => false
  | .ret => decide (r = .sp)
  | .unary .not _ rd => decide (r = rd)
  | .unary .push _ _ => decide (r = .sp)
  | .unary .pop _ rd => decide (r = rd) || decide (r = .sp)
  | .printRegister _ => false
  | .target .call _ => decide (r = .sp)
  | .target _ _ => false
  | .binary .test _ _ _ => false
  | .binary .compare _ _ _ => false
  | .binary _ _ rd _ => decide (r = rd)
  | .setIndirect _ ri _ => decide (r.index.val = (s.reg ri).toNat)

end Sys2Proof
end

