-- ==== Sys2Proof/Certificates/Slice0/Obligations.lean ====
section
/-! DEFINITION. The statements about the kasm engine. Each docstring cites the rule of spec/ it formalises. `s` is any
state, reachable or not, unless `State.Inv` is assumed; a result statement gives the whole next state, so it is also the
instruction's frame: every field it does not mention is unchanged. -/

open Sys2Proof Sys2Proof.Machine

/-! ### Encoding -/

/-- Decoding the word of a well-formed instruction gives the instruction back: no bit of the encoding is dropped
(30_encoding.md R107, R109, R111). -/
def Obligations.DecodeOfEncodeIsIdentity : Prop :=
  ∀ i : Instr, i.wf = true → decodeWord (encode i) = .ok i

/-- A word the decoder accepts is the word of a well-formed instruction: no two words spell one instruction, and an
accepted immediate fits its width (30_encoding.md R108, R110, R111). -/
def Obligations.AcceptedWordIsItsEncoding : Prop :=
  ∀ (word : InstrWord) (i : Instr), decodeWord word = .ok i → i.wf = true ∧ encode i = word

/-- The ten worked encodings of 30_encoding.md R113 (derived by the spec from R105 to R107): each line assembles to its
word, and the word decodes to the instruction. -/
def Obligations.WorkedEncodings : Prop :=
  (assemble (tokenize "stop".toList) = .ok 0x00000000000000000000#80 ∧
    decodeWord 0x00000000000000000000#80 = .ok .stop) ∧
  (assemble (tokenize "add-byte r0 1".toList) = .ok 0x11000000000000000001#80 ∧
    decodeWord 0x11000000000000000001#80 = .ok (.addByteI .r0 1)) ∧
  (assemble (tokenize "add-word r1 r0".toList) = .ok 0x16080000000000000000#80 ∧
    decodeWord 0x16080000000000000000#80 = .ok (.addWordR .r1 .r0)) ∧
  (assemble (tokenize "rem-byte r1 6".toList) = .ok 0x31080000000000000006#80 ∧
    decodeWord 0x31080000000000000006#80 = .ok (.remByteI .r1 6)) ∧
  (assemble (tokenize "push-word r0".toList) = .ok 0x3E000000000000000000#80 ∧
    decodeWord 0x3E000000000000000000#80 = .ok (.pushWord .r0)) ∧
  (assemble (tokenize "pop-byte sp".toList) = .ok 0x40800000000000000000#80 ∧
    decodeWord 0x40800000000000000000#80 = .ok (.popByte .sp)) ∧
  (assemble (tokenize "call 4".toList) = .ok 0x49000000000000000004#80 ∧
    decodeWord 0x49000000000000000004#80 = .ok (.callI 4)) ∧
  (assemble (tokenize "return".toList) = .ok 0x50000000000000000000#80 ∧
    decodeWord 0x50000000000000000000#80 = .ok .ret) ∧
  (assemble (tokenize "jump r3".toList) = .ok 0x88000000000000000003#80 ∧
    decodeWord 0x88000000000000000003#80 = .ok (.jumpR .r3)) ∧
  (assemble (tokenize "set-indirect-word r4 r5".toList) = .ok 0xA6200000000000000005#80 ∧
    decodeWord 0xA6200000000000000005#80 = .ok (.setIndirectWord .r4 .r5))

/-- An operation number 21 to 31 is UnknownOpcode, whatever the other bits are: the opcode is checked first
(30_encoding.md R109, R110 (a); 60_exceptions.md R263, word level). -/
def Obligations.UnassignedOpcodeIsUnknown : Prop :=
  ∀ word : InstrWord, 20 < word.toNat / 2 ^ 75 →
    decodeWord word = .error (.unknownOpcode (.field (BitVec.ofNat 5 (word.toNat / 2 ^ 75))))

/-- Register fields above 16, at the place each check has in the order (30_encoding.md R109, R110 (b); 60_exceptions.md
R265, R266, word level), the must-be-zero bits being whatever they are. An `rd` field above 16 is InvalidRegister with
that field, with every assigned opcode whose shape has a first register (all but stop 0, call 9, return 10, jump 17 and
print-stack 19). The rest assumes a valid `rd` where the shape has one: set-indirect's second register above 16 is
InvalidRegister with that field, and a register operand (`k` = 0) above 16 is InvalidOperand with the whole `imm` field,
at the instruction's width in shape RO and at Word in shape O. -/
def Obligations.RegisterFieldAbove16IsInvalid : Prop :=
  ∀ word : InstrWord,
    let op := word.toNat / 2 ^ 75
    let w := Width.ofCode (BitVec.ofNat 2 (word.toNat / 2 ^ 73 % 4))
    let k := word.toNat / 2 ^ 72 % 2
    let rd := word.toNat / 2 ^ 67 % 32
    let imm := word.toNat % 2 ^ 64
    let rs := word.toNat % 32
    (op ≤ 20 → op ∉ [0, 9, 10, 17, 19] → 16 < rd →
      decodeWord word = .error (.invalidRegister (.field (BitVec.ofNat 5 rd)))) ∧
    (op = 20 → rd ≤ 16 → 16 < rs →
      decodeWord word = .error (.invalidRegister (.field (BitVec.ofNat 5 rs)))) ∧
    (op ∈ [1, 2, 3, 4, 5, 6, 11, 12, 13, 15, 16] → k = 0 → rd ≤ 16 → 16 < rs →
      decodeWord word = .error (.invalidOperand (.field (BitVec.ofNat 64 imm)) w)) ∧
    (op ∈ [9, 17, 19] → k = 0 → 16 < rs →
      decodeWord word = .error (.invalidOperand (.field (BitVec.ofNat 64 imm)) .word))

/-- Immediates are not wrapped: with an RO operation (1 to 6, 11 to 13, 15, 16), a valid `rd` field and `k` = 1, a value
above `MAX_W` is InvalidOperand with the whole `imm` field and the width (30_encoding.md R108, R109, R110 (c);
60_exceptions.md R266, word level). -/
def Obligations.ImmediateAboveMaxIsInvalid : Prop :=
  ∀ word : InstrWord,
    let op := word.toNat / 2 ^ 75
    let w := Width.ofCode (BitVec.ofNat 2 (word.toNat / 2 ^ 73 % 4))
    let imm := word.toNat % 2 ^ 64
    op ∈ [1, 2, 3, 4, 5, 6, 11, 12, 13, 15, 16] → word.toNat / 2 ^ 72 % 2 = 1 → word.toNat / 2 ^ 67 % 32 ≤ 16 →
    w.maxVal < imm → decodeWord word = .error (.invalidOperand (.field (BitVec.ofNat 64 imm)) w)

/-- Text and word agree: the assembled word of an accepted line decodes to what the line decodes to (30_encoding.md
R111, derived by the spec from R97, R107 and R109). -/
def Obligations.AssembledWordDecodesAsItsLine : Prop :=
  ∀ (tokens : List Token) (word : InstrWord), assemble tokens = .ok word → decodeWord word = decodeText tokens

/-- Every well-formed instruction has a line: its tokens decode to it at the text level (30_encoding.md R93 to R97),
mnemonics, register names and decimal literals included. The line is the one the model's `Instr.tokens` writes. -/
def Obligations.DecodeOfLineIsIdentity : Prop :=
  ∀ i : Instr, i.wf = true → decodeText i.tokens = .ok i

/-- Every word the decoder accepts is `Assemble` of some line (30_encoding.md R111, derived by the spec from R97, R107
and R109). -/
def Obligations.AcceptedWordHasALine : Prop :=
  ∀ (word : InstrWord) (i : Instr), decodeWord word = .ok i → ∃ tokens, assemble tokens = .ok word

/-- Trailing tokens are never ignored: any accepted line with more tokens after it is WrongArity with the counts found,
however its literals are spelled (30_encoding.md R97; 60_exceptions.md R264). -/
def Obligations.SurplusTokensAreWrongArity : Prop :=
  ∀ (i : Instr) (t0 : Token) (args extra : List Token), decodeText (t0 :: args) = .ok i → extra ≠ [] →
    decodeText (t0 :: (args ++ extra)) =
      .error (.wrongArity (.tokens t0 args.length (args.length + extra.length)))

/-- Missing tokens are never defaulted: any accepted line cut short is WrongArity with the counts found, however its
literals are spelled (30_encoding.md R97; 60_exceptions.md R264). -/
def Obligations.MissingTokensAreWrongArity : Prop :=
  ∀ (i : Instr) (t0 : Token) (args : List Token) (n : Nat), decodeText (t0 :: args) = .ok i → n < args.length →
    decodeText (t0 :: args.take n) = .error (.wrongArity (.tokens t0 args.length n))

/-- Tokens are the maximal runs of characters other than space and tab (30_encoding.md R92): no text, no token; a run is
one token; a separator ends one. -/
def Obligations.TokensAreMaximalRuns : Prop :=
  tokenize [] = [] ∧
  (∀ t : Token, t ≠ [] → (∀ c ∈ t, isSeparator c = false) → tokenize t = [t]) ∧
  (∀ (a b : List Char) (c : Char), isSeparator c = true → tokenize (a ++ c :: b) = tokenize a ++ tokenize b) ∧
  (∀ c : Char, isSeparator c = true ↔ c = ' ' ∨ c = '\t')

/-! ### The step cycle -/

/-- A step runs the decoded instruction: when the engine runs and the line at `pc` decodes to `i`, the step is `exec i`
and nothing more (40_engine_cycle.md R141, R144; the sequencer's work is part of each meaning, log entry 17). -/
def Obligations.StepRunsDecodedInstruction : Prop :=
  ∀ (s : State) (line : Line) (i : Instr), s.run = .running → s.config.prog[s.pc.toNat]? = some line →
    decodeLine line = .ok i → step s = exec i s

/-- A decode failure aborts the run and changes nothing but `run` and `err` (30_encoding.md R98; 60_exceptions.md
R262). -/
def Obligations.DecodeFailureChangesOnlyRunAndErr : Prop :=
  ∀ (s : State) (line : Line) (e : DecodeError), s.run = .running → s.config.prog[s.pc.toNat]? = some line →
    decodeLine line = .error e → step s = .next { s with run := .stopped, err := some (.decode e) }

/-- End of input is an implicit stop: `pc`, `icount`, registers, flags and stack stay; with `REPORT_COUNT` the count is
handed over, and only a fault of that report sets `err` (40_engine_cycle.md R147, decision D18). How the model records
the event and takes the sink's answer is its own (log entries 4 and 5). -/
def Obligations.EndOfInputStopsTheRun : Prop :=
  ∀ s : State, s.run = .running → s.config.prog.length ≤ s.pc.toNat →
    (s.config.reportCount = false → step s = .next { s with run := .stopped }) ∧
    (s.config.reportCount = true → s.nextAnswer = .ok →
      step s = .next { s with
        run := .stopped, events := s.events ++ [.countReport s.icount], answers := s.answers.tail }) ∧
    (∀ msg, s.config.reportCount = true → s.nextAnswer = .ioFault msg →
      step s = .next { s with
        run := .stopped, err := some (.execute (.io msg)), events := s.events ++ [.countReport s.icount],
        answers := s.answers.tail })

/-- A stopped engine does nothing, however often it is stepped: nothing resumes it (40_engine_cycle.md R148,
decision D27). -/
def Obligations.StoppedEngineDoesNothing : Prop :=
  ∀ (k : Nat) (s : State), s.run = .stopped → Host.Core.run Sys2Proof.core k s = .next s

/-- Every step of every state has a next state: no instruction is refused, and the bounds checks keep every stack
access inside the buffer (20_memory.md R61, R62, R68). -/
def Obligations.EveryStepHasANextState : Prop :=
  ∀ s : State, ∃ t, step s = .next t

/-- Every step keeps the invariant: canonical stack buffer inside `[0, STACK_CAP)`, no error latched while running,
parameters within their bounds (10_state.md R33; 20_memory.md R60, R68; 00_scope.md R6). -/
def Obligations.StepKeepsInvariant : Prop :=
  ∀ s t : State, s.Inv → step s = .next t → t.Inv

/-- Reset establishes the invariant, for every configuration within the bounds (10_state.md R38). -/
def Obligations.ResetEstablishesInvariant : Prop :=
  (∀ c : Config, c.wf → (State.resetWith c).Inv) ∧ State.reset.Inv

/-- Reset values (10_state.md R38): every register 0, so the stack is empty; `pc` 0; flags false; Running; no error;
`icount` 0; every byte of the stack buffer unspecified (`STACK_INIT`). -/
def Obligations.ResetValues : Prop :=
  ∀ c : Config,
    let s := State.resetWith c
    (∀ r, s.reg r = 0) ∧ s.pc = 0 ∧ s.flags.z = false ∧ s.flags.v = false ∧ s.flags.s = false ∧ s.run = .running ∧
      s.err = none ∧ s.icount = 0 ∧ ∀ a, s.stk.read a = Config.stackInit a

/-- The configuration is constant for the run (70_reset_and_hazards.md R302): no step changes `PROG`, `PROG_LEN`,
`REPORT_COUNT` or `STACK_CAP`; in particular nothing writes the instruction store (20_memory.md R73). -/
def Obligations.ConfigurationIsConstant : Prop :=
  ∀ (k : Nat) (s t : State), Host.Core.run Sys2Proof.core k s = .next t → t.config = s.config

/-- Events are never retracted, and a step emits at most one (46_print.md R250). -/
def Obligations.EventsAreNeverRetracted : Prop :=
  ∀ s t : State, step s = .next t → t.events = s.events ∨ ∃ e, t.events = s.events ++ [e]

/-- The error latch is never cleared or rewritten: a run has at most one error (10_state.md R33; 60_exceptions.md
R272, and R276, which the spec derives). -/
def Obligations.ErrorLatchIsFinal : Prop :=
  ∀ (k : Nat) (s t : State) (e : Error), s.Inv → s.err = some e → Host.Core.run Sys2Proof.core k s = .next t →
    t.err = some e

/-! ### What any instruction may change -/

/-- Errors are precise: an instruction that latches an error has changed nothing but `run` and `err` (60_exceptions.md
R262, and R273, which the spec derives from it), save that an emission the sink answers with a fault leaves its one event
recorded after those already there and its answer used up (46_print.md R250; the record, the answers and that the faulted
event stays are the model's, log entries 4, 5 and 11). -/
def Obligations.FailedInstructionChangesNothingElse : Prop :=
  ∀ (i : Instr) (s t : State), s.err = none → exec i s = .next t → t.err ≠ none →
    t = { s with run := .stopped, err := t.err } ∨
    ∃ (e : Event) (msg : Token), t = { s with
      run := .stopped, err := some (.execute (.io msg)), events := s.events ++ [e], answers := s.answers.tail }

/-- `icount` counts exactly the successfully executed instructions: one more after a step whose instruction executed
without error (Stop included), unchanged by end of input, a decode failure, an execute failure and a step of a stopped
engine; the count Stop reports is the one before its own increment (40_engine_cycle.md R146). That the report is the last
event of the model's record, also when the sink answers it with a fault, is the model's (DEDUCED, log entries 5 and
11). -/
def Obligations.IcountCountsSuccessfulInstructions : Prop :=
  (∀ s t : State, s.Inv → step s = .next t →
    let executed := s.run = .running ∧ (∃ line i, s.fetch = some line ∧ decodeLine line = .ok i) ∧ t.err = none
    (executed → t.icount = s.icount + 1) ∧ (¬executed → t.icount = s.icount)) ∧
  (∀ s t : State, s.config.reportCount = true → exec .stop s = .next t →
    t.events = s.events ++ [.countReport s.icount])

/-- The program counter (10_state.md R27). After success: the resolved operand for jump and call, the popped value plus
one modulo 2^64 for return, one more for every other instruction, stop included. Unchanged by any instruction that
fails, by a decode failure and by end of input. -/
def Obligations.ProgramCounterAfterEveryStep : Prop :=
  (∀ (i : Instr) (s t : State), s.err = none → exec i s = .next t →
    (t.err ≠ none → t.pc = s.pc) ∧
    (t.err = none →
      match i.toForm with
      | .target .jump src => t.pc = BitVec.ofNat 64 (s.operandValue src .word)
      | .target .call src => t.pc = BitVec.ofNat 64 (s.operandValue src .word)
      | .ret => t.pc = BitVec.ofNat 64 (s.stk.readBytes (s.spNat - 8) 8 + 1)
      | _ => t.pc = s.pc + 1)) ∧
  (∀ s t : State, (s.fetch = none ∨ ∃ line e, s.fetch = some line ∧ decodeLine line = .error e) →
    step s = .next t → t.pc = s.pc)

/-- Only the eleven arithmetic and logic operations write flags, all three from one W-bit result, and only when they
succeed (10_state.md R30; 40_engine_cycle.md R153). -/
def Obligations.FlagsWrittenByAluOnly : Prop :=
  ∀ (i : Instr) (s t : State), s.err = none → exec i s = .next t →
    (i.toForm.opcode.writesFlags = false ∨ t.err ≠ none → t.flags = s.flags) ∧
    (i.toForm.opcode.writesFlags = true → t.err = none →
      ∃ (w : Width) (r : Nat) (ovf : Bool), r < 2 ^ w.bits ∧ t.flags = flagsOfNat w r ovf)

/-- Register frame of every instruction: a register that is neither the destination nor a stack pointer that push, pop,
call or return moves keeps all its 64 bits (10_state.md R22, R25). -/
def Obligations.RegisterFrame : Prop :=
  ∀ (i : Instr) (s t : State) (r : Reg), exec i s = .next t → i.toForm.mayWrite s r = false → t.reg r = s.reg r

/-- Memory frame of every instruction: a byte of the stack buffer outside the bytes stored at `x[SP]` (the width's for a
push, 8 for a call, none for every other instruction) reads as before (10_state.md R37; 20_memory.md R62). -/
def Obligations.StackBufferFrame : Prop :=
  ∀ (i : Instr) (s t : State) (a : Nat), exec i s = .next t →
    ¬(s.spNat ≤ a ∧ a < s.spNat + i.toForm.storeBytes) → t.stk.read a = s.stk.read a

/-- No instruction reads a flag: two runs of any length from states that differ only in their flags differ at most in
their flags (10_state.md R30). -/
def Obligations.NoInstructionReadsAFlag : Prop :=
  ∀ (k : Nat) (s t : State) (f : Flags), Host.Core.run Sys2Proof.core k s = .next t →
    ∃ g, Host.Core.run Sys2Proof.core k { s with flags := f } = .next { t with flags := g }

/-- No instruction reads the instruction counter as data: changing it changes no register, flag, stack byte, `pc`, `run`
or `err` of the next state, and the counter itself advances by as much; the event record is the same, but for a count
report by stop, which carries the changed count (10_state.md R34; 60_exceptions.md R279; the record is the model's, log
entry 5). -/
def Obligations.NoInstructionReadsIcount : Prop :=
  ∀ (i : Instr) (s t : State) (c : Word), exec i s = .next t →
    exec i { s with icount := c } = .next { t with
      icount := c + (t.icount - s.icount)
      events := if i = .stop ∧ s.config.reportCount = true then s.events ++ [.countReport c] else t.events }

/-! ### Primitives -/

/-- The narrowing read: the low W bits of the cell, byte k of the value being byte k of the cell (10_state.md R23). -/
def Obligations.NarrowingRead : Prop :=
  ∀ (s : State) (r : Reg) (w : Width),
    (s.rdreg r w).toNat = (s.reg r).toNat % 2 ^ w.bits ∧
    ∀ k, k < w.bytes → (s.rdreg r w).toNat / 256 ^ k % 256 = (s.reg r).toNat / 256 ^ k % 256

/-- The widening write: the cell becomes the zero-extended value, so its upper bits are zero; no other register and no
other state changes (10_state.md R24). -/
def Obligations.WideningWrite : Prop :=
  ∀ (s : State) (r : Reg) (w : Width) (v : BitVec w.bits),
    ((s.wrreg r w v).reg r).toNat = v.toNat ∧ (∀ q, q ≠ r → (s.wrreg r w v).reg q = s.reg q) ∧
    s.wrreg r w v = { s with regs := (s.wrreg r w v).regs }

/-- `MemRead`: inside the buffer it answers the number whose byte k is the byte at offset `addr + k` (20_memory.md
R61, little-endian R63). -/
def Obligations.MemReadIsLittleEndian : Prop :=
  ∀ (s : State) (addr n : Nat), addr + n ≤ s.config.stackCap →
    ∃ v, s.memRead addr n = .ok v ∧ v < 256 ^ n ∧ ∀ k, k < n → v / 256 ^ k % 256 = (s.stk.read (addr + k)).toNat

/-- `MemWrite`: inside the buffer it stores byte k of the value at offset `addr + k` and changes nothing else
(20_memory.md R62). -/
def Obligations.MemWriteIsLittleEndian : Prop :=
  ∀ (s : State) (addr n v : Nat), addr + n ≤ s.config.stackCap →
    ∃ m : Memory, s.memWrite addr n v = .ok { s with stk := m } ∧
      (∀ k, k < n → m.read (addr + k) = BitVec.ofNat 8 (v / 256 ^ k)) ∧
      ∀ a, a < addr ∨ addr + n ≤ a → m.read a = s.stk.read a

/-! ### Set -/

/-- Set at every width, register and literal forms: the cell becomes the zero-extended operand; no flag changes
(41_set.md R170). -/
def Obligations.SetResult : Prop :=
  ∀ (w : Width) (rd : Reg) (src : Operand) (s : State), src.wf w = true →
    exec (.binary .set w rd src) s = .next (s.withReg rd (s.operandValue src w)).advanced

/-- Set-indirect at every width: with all 64 bits of `x[ri]` the index of a register, that register gets the low W bits
of `x[rv]`, zero-extended; no flag changes (41_set.md R171). -/
def Obligations.SetIndirectResult : Prop :=
  ∀ (w : Width) (ri rv rd : Reg) (s : State), (s.reg ri).toNat = rd.index.val →
    exec (.setIndirect w ri rv) s = .next (s.withReg rd (s.regValue rv w)).advanced

/-- Set-indirect with an index above 16 aborts with InvalidRegisterCast of the whole 64-bit value and changes no
register (41_set.md R171; 60_exceptions.md R268). -/
def Obligations.SetIndirectInvalidIndex : Prop :=
  ∀ (w : Width) (ri rv : Reg) (s : State), 16 < (s.reg ri).toNat →
    exec (.setIndirect w ri rv) s =
      .next { s with run := .stopped, err := some (.execute (.invalidRegisterCast (s.reg ri))) }

/-! ### Arithmetic -/

/-- Addition at every width: the sum modulo 2^W, zero-extended; V is the carry out (42_arithmetic.md R181). -/
def Obligations.AdditionResult : Prop :=
  ∀ (w : Width) (rd : Reg) (src : Operand) (s : State), src.wf w = true →
    let a := s.regValue rd w
    let b := s.operandValue src w
    let r := (a + b) % 2 ^ w.bits
    exec (.binary .add w rd src) s =
      .next { s.withReg rd r with flags := flagsOfNat w r (decide (w.maxVal < a + b)) }.advanced

/-- Subtraction at every width: the difference modulo 2^W, zero-extended; V is the borrow (42_arithmetic.md R182). -/
def Obligations.SubtractionResult : Prop :=
  ∀ (w : Width) (rd : Reg) (src : Operand) (s : State), src.wf w = true →
    let a := s.regValue rd w
    let b := s.operandValue src w
    let r := (a + 2 ^ w.bits - b) % 2 ^ w.bits
    exec (.binary .sub w rd src) s =
      .next { s.withReg rd r with flags := flagsOfNat w r (decide (a < b)) }.advanced

/-- Multiplication at every width: the low W bits of the product, zero-extended; V when the product exceeds `MAX_W`
(42_arithmetic.md R183). -/
def Obligations.MultiplicationResult : Prop :=
  ∀ (w : Width) (rd : Reg) (src : Operand) (s : State), src.wf w = true →
    let a := s.regValue rd w
    let b := s.operandValue src w
    let r := a * b % 2 ^ w.bits
    exec (.binary .mul w rd src) s =
      .next { s.withReg rd r with flags := flagsOfNat w r (decide (w.maxVal < a * b)) }.advanced

/-- Division at every width by a divisor that is not zero at that width: the floor of the quotient; V false
(42_arithmetic.md R184). -/
def Obligations.DivisionResult : Prop :=
  ∀ (w : Width) (rd : Reg) (src : Operand) (s : State), src.wf w = true → s.operandValue src w ≠ 0 →
    let r := s.regValue rd w / s.operandValue src w
    exec (.binary .div w rd src) s = .next { s.withReg rd r with flags := flagsOfNat w r false }.advanced

/-- Remainder at every width by a divisor that is not zero at that width: the non-negative remainder; V false
(42_arithmetic.md R185). -/
def Obligations.RemainderResult : Prop :=
  ∀ (w : Width) (rd : Reg) (src : Operand) (s : State), src.wf w = true → s.operandValue src w ≠ 0 →
    let r := s.regValue rd w % s.operandValue src w
    exec (.binary .rem w rd src) s = .next { s.withReg rd r with flags := flagsOfNat w r false }.advanced

/-- Division and Remainder by a divisor that is zero at the operation's width abort with DivideByZero; neither the
register nor the flags are modified (42_arithmetic.md R184, R185; 60_exceptions.md R267). -/
def Obligations.ZeroDivisorAborts : Prop :=
  ∀ (o : BinOp) (w : Width) (rd : Reg) (src : Operand) (s : State), o = .div ∨ o = .rem → src.wf w = true →
    s.operandValue src w = 0 →
    exec (.binary o w rd src) s = .next { s with run := .stopped, err := some (.execute .divideByZero) }

/-- Add then sub of one operand that is not the register itself restores the register's W-bit value; Z is set iff it is
0, S is its top bit, V is the add's overflow (42_arithmetic.md R186, the source's law; the spec derives it from
R181 and R182). -/
def Obligations.AddSubRoundTrip : Prop :=
  ∀ (w : Width) (rd : Reg) (src : Operand) (s t u : State), src.wf w = true → src ≠ .reg rd →
    exec (.binary .add w rd src) s = .next t → exec (.binary .sub w rd src) t = .next u →
    (u.reg rd).toNat = s.regValue rd w ∧ u.flags = flagsOfNat w (s.regValue rd w) t.flags.v

/-! ### Logic and comparison -/

/-- And, Or, Xor at every width: the bitwise result, zero-extended; V false (43_logic_compare.md R200 to R203). -/
def Obligations.LogicResult : Prop :=
  ∀ (w : Width) (rd : Reg) (src : Operand) (s : State), src.wf w = true →
    let a := s.regValue rd w
    let b := s.operandValue src w
    exec (.binary .and w rd src) s =
      .next { s.withReg rd (a &&& b) with flags := flagsOfNat w (a &&& b) false }.advanced ∧
    exec (.binary .or w rd src) s =
      .next { s.withReg rd (a ||| b) with flags := flagsOfNat w (a ||| b) false }.advanced ∧
    exec (.binary .xor w rd src) s =
      .next { s.withReg rd (a ^^^ b) with flags := flagsOfNat w (a ^^^ b) false }.advanced

/-- Not at every width: `MAX_W` minus the low W bits, the upper bits cleared; V false (43_logic_compare.md R204). -/
def Obligations.NotResult : Prop :=
  ∀ (w : Width) (rd : Reg) (s : State),
    let r := w.maxVal - s.regValue rd w
    exec (.unary .not w rd) s = .next { s.withReg rd r with flags := flagsOfNat w r false }.advanced

/-- Test and Compare at every width change the flags only: Test as And would, Compare as Subtraction would, so that Z is
equality and V the unsigned order of the W-bit values (43_logic_compare.md R205, R206). -/
def Obligations.TestCompareResult : Prop :=
  ∀ (w : Width) (ra : Reg) (src : Operand) (s : State), src.wf w = true →
    let a := s.regValue ra w
    let b := s.operandValue src w
    exec (.binary .test w ra src) s = .next { s with flags := flagsOfNat w (a &&& b) false }.advanced ∧
    exec (.binary .compare w ra src) s =
      .next { s with flags := { z := decide (a = b), v := decide (a < b),
                                s := decide (2 ^ (w.bits - 1) ≤ (a + 2 ^ w.bits - b) % 2 ^ w.bits) } }.advanced

/-! ### Control transfer -/

/-- Jump: `pc` becomes the 64-bit operand; only `pc` and the count change (44_control_transfer.md R220). -/
def Obligations.JumpResult : Prop :=
  ∀ (src : Operand) (s : State),
    exec (.target .jump src) s =
      .next { s with pc := BitVec.ofNat 64 (s.operandValue src .word), icount := s.icount + 1 }

/-- Call with 8 bytes free: the call's own index is stored at `x[SP]`, the pointer moves up by 8, and `pc` becomes the
operand as it was before the push (44_control_transfer.md R221). -/
def Obligations.CallResult : Prop :=
  ∀ (src : Operand) (s : State), s.spNat + 8 ≤ s.config.stackCap →
    exec (.target .call src) s =
      .next { s.withReg .sp (s.spNat + 8) with
        stk := s.stk.writeBytes s.spNat 8 s.pc.toNat
        pc := BitVec.ofNat 64 (s.operandValue src .word)
        icount := s.icount + 1 }

/-- Return with at least 8 bytes on a pointer within the capacity: the pointer moves down by 8 and `pc` becomes the
popped value plus one, modulo 2^64; the popped bytes stay (44_control_transfer.md R222). -/
def Obligations.ReturnResult : Prop :=
  ∀ s : State, 8 ≤ s.spNat → s.spNat ≤ s.config.stackCap →
    exec .ret s =
      .next { s.withReg .sp (s.spNat - 8) with
        pc := BitVec.ofNat 64 (s.stk.readBytes (s.spNat - 8) 8 + 1)
        icount := s.icount + 1 }

/-- Stop: `run` becomes Stopped and the sequencer still advances `pc` and the count; with `REPORT_COUNT` the count
before the increment is handed over, and a fault of that report aborts with IO, `pc` and count not advanced
(44_control_transfer.md R223). The event record and the sink's answers are the model's own fields (log entries 4, 5). -/
def Obligations.StopResult : Prop :=
  ∀ s : State,
    (s.config.reportCount = false → exec .stop s = .next { s.advanced with run := .stopped }) ∧
    (s.config.reportCount = true → s.nextAnswer = .ok →
      exec .stop s = .next { s.advanced with
        run := .stopped, events := s.events ++ [.countReport s.icount], answers := s.answers.tail }) ∧
    (∀ msg, s.config.reportCount = true → s.nextAnswer = .ioFault msg →
      exec .stop s = .next { s with
        run := .stopped, err := some (.execute (.io msg)), events := s.events ++ [.countReport s.icount],
        answers := s.answers.tail })

/-- Call and return are symmetric: after a call at index c with pointer p that had room, a return from any later state
whose pointer is p + 8 and whose 8 bytes from p are as the call left them resumes at c + 1 with pointer p
(44_control_transfer.md R224, derived by the spec from R221 and R222). -/
def Obligations.CallReturnSymmetry : Prop :=
  ∀ (src : Operand) (s t u : State), s.config.wf → s.spNat + 8 ≤ s.config.stackCap →
    exec (.target .call src) s = .next t → u.config = s.config → u.reg .sp = t.reg .sp →
    (∀ a, s.spNat ≤ a → a < s.spNat + 8 → u.stk.read a = t.stk.read a) →
    exec .ret u = .next { u.withReg .sp s.spNat with pc := s.pc + 1, icount := u.icount + 1 }

/-! ### Stack -/

/-- Push at every width with room for it: the register's low W bits are stored at `x[SP]`, little-endian, and the pointer
moves up; `push-W sp` stores the old pointer (45_stack.md R240). -/
def Obligations.PushResult : Prop :=
  ∀ (w : Width) (rs : Reg) (s : State), s.spNat + w.bytes ≤ s.config.stackCap →
    exec (.unary .push w rs) s =
      .next { s.withReg .sp (s.spNat + w.bytes) with
        stk := s.stk.writeBytes s.spNat w.bytes (s.regValue rs w) }.advanced

/-- Pop at every width with enough bytes below a pointer within the capacity: the pointer moves down, then the
destination gets the bytes there, zero-extended; `pop-W sp` ends with the popped value; the bytes stay (45_stack.md
R241). -/
def Obligations.PopResult : Prop :=
  ∀ (w : Width) (rd : Reg) (s : State), w.bytes ≤ s.spNat → s.spNat ≤ s.config.stackCap →
    exec (.unary .pop w rd) s =
      .next ((s.withReg .sp (s.spNat - w.bytes)).withReg rd (s.stk.readBytes (s.spNat - w.bytes) w.bytes)).advanced

/-- Stack accesses that would leave the buffer abort with nothing written: push and call without room, and pop and return
with a pointer above the capacity, with StackOverflow; pop and return with too few bytes below a pointer within the
capacity, with StackUnderflow. The comparison is on unbounded integers (20_memory.md R68; 60_exceptions.md R269,
R270). -/
def Obligations.StackBoundsErrors : Prop :=
  ∀ s : State,
    let overflow : State := { s with run := .stopped, err := some (.execute .stackOverflow) }
    let underflow : State := { s with run := .stopped, err := some (.execute .stackUnderflow) }
    (∀ w rs, s.config.stackCap < s.spNat + w.bytes → exec (.unary .push w rs) s = .next overflow) ∧
    (∀ src, s.config.stackCap < s.spNat + 8 → exec (.target .call src) s = .next overflow) ∧
    (∀ w rd, s.config.stackCap < s.spNat → exec (.unary .pop w rd) s = .next overflow) ∧
    (s.config.stackCap < s.spNat → exec .ret s = .next overflow) ∧
    (∀ w rd, s.spNat ≤ s.config.stackCap → s.spNat < w.bytes → exec (.unary .pop w rd) s = .next underflow) ∧
    (s.spNat ≤ s.config.stackCap → s.spNat < 8 → exec .ret s = .next underflow)

/-- Push then pop of one width gives back the pushed low W bits, zero-extended, and (unless the pop's destination is
`sp`) the stack pointer's value (45_stack.md R242, derived by the spec from R240 and R241). -/
def Obligations.PushPopRoundTrip : Prop :=
  ∀ (w : Width) (ra rb : Reg) (s t u : State), s.config.wf → s.spNat + w.bytes ≤ s.config.stackCap →
    exec (.unary .push w ra) s = .next t → exec (.unary .pop w rb) t = .next u →
    (u.reg rb).toNat = s.regValue ra w ∧ (rb ≠ .sp → u.reg .sp = s.reg .sp)

/-- The stack-pointer invariant: a pointer within `[0, STACK_CAP]` stays within it through every push, pop, call and
return, successful or not, but for a successful pop into `sp` (45_stack.md R243, derived by the spec from R68, R240,
R241, R221 and R222). -/
def Obligations.StackPointerStaysWithinCapacity : Prop :=
  ∀ (i : Instr) (s t : State), s.config.wf → s.spNat ≤ s.config.stackCap →
    (∃ w rs, i = .unary .push w rs) ∨ (∃ w rd, rd ≠ .sp ∧ i = .unary .pop w rd) ∨ (∃ src, i = .target .call src) ∨
      i = .ret →
    exec i s = .next t → t.spNat ≤ t.config.stackCap

/-! ### Output -/

/-- Print-register hands over the register's index and whole cell; on `ok` only `pc` and the count change, on a fault the
run aborts with IO of its message (46_print.md R250, R251; 60_exceptions.md R271). The event record and the sink's answers
are the model's own fields (log entries 4, 5). -/
def Obligations.PrintRegisterResult : Prop :=
  ∀ (r : Reg) (s : State),
    let events := s.events ++ [.printRegister r.index.val (s.reg r)]
    (s.nextAnswer = .ok →
      exec (.printRegister r) s = .next { s.advanced with events := events, answers := s.answers.tail }) ∧
    (∀ msg, s.nextAnswer = .ioFault msg →
      exec (.printRegister r) s = .next { s with
        run := .stopped, err := some (.execute (.io msg)), events := events, answers := s.answers.tail })

/-- Print-stack hands over the resolved 64-bit operand, the stack pointer and a view of the bytes below the smaller of
pointer and capacity, whatever the pointer and the operand are; on `ok` only `pc` and the count change, on a fault the
run aborts with IO of its message (46_print.md R250, R252; 60_exceptions.md R271). The event record, the sink's answers and the
view's form are the model's own (log entries 4, 5, 16). -/
def Obligations.PrintStackResult : Prop :=
  ∀ (src : Operand) (s : State),
    ∃ view : StackView,
      (∀ a, view.read a = if a < s.spNat ∧ a < s.config.stackCap then some (s.stk.read a) else none) ∧
      let events := s.events ++ [.printStack (BitVec.ofNat 64 (s.operandValue src .word)) (s.reg .sp) view]
      (s.nextAnswer = .ok →
        exec (.target .printStack src) s = .next { s.advanced with events := events, answers := s.answers.tail }) ∧
      (∀ msg, s.nextAnswer = .ioFault msg →
        exec (.target .printStack src) s = .next { s with
          run := .stopped, err := some (.execute (.io msg)), events := events, answers := s.answers.tail })
end

