-- ==== Sys2Proof/Laws/Decode.lean ====
section
/-! SUPPORT. The decoder's and encoder's small lemmas: registers and their indices, width codes, the fields of a word,
the abstract form of an instruction, and one lemma that says what the checks of `DecodeWord` leave. -/

namespace Sys2Proof

/-! ### Registers and widths -/

@[simp] theorem ofIndex_index (r : Reg) : Reg.ofIndex r.index.val = some r := by cases r <;> rfl

theorem reg_index_injective {q r : Reg} (h : q.index = r.index) : q = r := by
  have := ofIndex_index q
  rw [h, ofIndex_index] at this
  exact (Option.some.inj this).symm

theorem reg_index_val_ne {q r : Reg} (h : q ≠ r) : r.index.val ≠ q.index.val := fun e =>
  h (reg_index_injective (Fin.ext e.symm))

/-- An index names a register exactly when it is that register's index (10_state.md R21). -/
theorem ofIndex_eq_some {n : Nat} {r : Reg} : Reg.ofIndex n = some r ↔ n = r.index.val := by
  constructor
  · intro h
    by_cases hn : n < 17
    · interval_cases n <;> cases h <;> rfl
    · exfalso
      revert h
      unfold Reg.ofIndex
      split <;> simp_all
  · rintro rfl
    exact ofIndex_index r

/-- An index names no register exactly when it is above 16 (41_set.md R171). -/
theorem ofIndex_eq_none {n : Nat} : Reg.ofIndex n = none ↔ 16 < n := by
  constructor
  · intro h
    by_contra hn
    have : n < 17 := by omega
    interval_cases n <;> cases h
  · intro h
    cases hr : Reg.ofIndex n with
    | none => rfl
    | some r =>
      have h1 := ofIndex_eq_some.1 hr
      have h2 := r.index.isLt
      omega

@[simp] theorem ofCode_code (w : Width) : Width.ofCode w.code = w := by cases w <;> rfl

@[simp] theorem code_ofCode (c : BitVec 2) : (Width.ofCode c).code = c := by revert c; decide

@[simp] theorem regOfField_field (r : Reg) : regOfField r.field = r := by cases r <;> rfl

@[simp] theorem field_toNat (r : Reg) : r.field.toNat = r.index.val := by cases r <;> rfl

theorem field_regOfField {v : BitVec 5} (h : v.toNat ≤ 16) : (regOfField v).field = v := by
  revert v; decide

@[simp] theorem number_lt (o : Opcode) : o.number < 32 := by
  rcases o with _ | _ | o | _ | o | o | _ <;> first | decide | (cases o <;> decide)

@[simp] theorem ofNumber_number (o : Opcode) : Opcode.ofNumber o.number = some o := by
  rcases o with _ | _ | o | _ | o | o | _ <;> first | rfl | (cases o <;> rfl)

/-! ### Instructions and their abstract forms -/

@[simp] theorem ofForm_toForm (i : Instr) : Instr.ofForm i.toForm = i := by cases i <;> rfl

@[simp] theorem toForm_ofForm (f : Form) : (Instr.ofForm f).toForm = f := by
  rcases f with _ | _ | ⟨o, w, _⟩ | _ | ⟨o, s⟩ | ⟨o, w, _, s⟩ | ⟨w, _, _⟩
  · rfl
  · rfl
  · cases o <;> cases w <;> rfl
  · rfl
  · cases o <;> cases s <;> rfl
  · cases o <;> cases w <;> cases s <;> rfl
  · cases w <;> rfl

/-- Well-formedness is that of the abstract form (30_encoding.md R90). -/
theorem wf_eq_toForm_wf (i : Instr) : i.wf = i.toForm.wf := by cases i <;> rfl

@[simp] theorem wf_ofForm (f : Form) : (Instr.ofForm f).wf = f.wf := by rw [wf_eq_toForm_wf, toForm_ofForm]

/-! ### The fields of a word -/

@[simp] theorem ofWord_toWord (f : Fields) : Fields.ofWord f.toWord = f := by
  rcases f with ⟨op, w, k, rd, z, imm⟩
  simp only [Fields.ofWord, Fields.toWord, Fields.mk.injEq]
  refine ⟨?_, ?_, ?_, ?_, ?_, ?_⟩ <;>
    (ext i hi; simp only [BitVec.getElem_extractLsb', BitVec.getLsbD_append]; simp; grind)

@[simp] theorem toWord_ofWord (word : InstrWord) : (Fields.ofWord word).toWord = word := by
  ext i hi
  simp only [Fields.ofWord, Fields.toWord]
  simp
  grind

/-! ### What `DecodeWord` accepts -/

/-- The checks of `DecodeWord` all pass exactly when every register field is at most 16, the immediate is at most
`MAX_W`, and every unused field is zero (30_encoding.md R109). -/
theorem check_eq_none {f : Fields} {o : Opcode} :
    f.check o = none ↔
      (o.shape.hasRd = true → f.rd.toNat ≤ 16) ∧ (o.shape = .rr → f.rs.toNat ≤ 16) ∧
      (o.shape.hasOperand = true → f.k = 0 → f.rs.toNat ≤ 16) ∧
      (o.shape.hasOperand = true → f.k = 1 → f.imm.toNat ≤ (f.operandWidth o).maxVal) ∧ f.mbzOk o = true := by
  unfold Fields.check
  split_ifs with h1 h2 h3 h4 h5
  · simp only [false_iff]; intro h; have := h.1 h1.1; omega
  · simp only [false_iff]; intro h; have := h.2.1 h2.1; omega
  · simp only [false_iff]; intro h; have := h.2.2.1 h3.1 h3.2.1; omega
  · simp only [false_iff]; intro h; have := h.2.2.2.1 h4.1 h4.2.1; omega
  · simp only [true_iff]
    refine ⟨fun a => ?_, fun a => ?_, fun a b => ?_, fun a b => ?_, h5⟩ <;> by_contra hc
    · exact h1 ⟨a, by omega⟩
    · exact h2 ⟨a, by omega⟩
    · exact h3 ⟨a, b, by omega⟩
    · exact h4 ⟨a, b, by omega⟩
  · simp only [false_iff]; intro h; exact h5 h.2.2.2.2

/-- A word is accepted exactly when its opcode is assigned and the checks pass; the instruction is then the one the
fields spell (30_encoding.md R109). -/
theorem decodeWord_eq_ok {word : InstrWord} {i : Instr} :
    decodeWord word = .ok i ↔
      ∃ o, Opcode.ofNumber (Fields.ofWord word).op.toNat = some o ∧ (Fields.ofWord word).check o = none ∧
        Instr.ofForm ((Fields.ofWord word).form o) = i := by
  unfold decodeWord Fields.decode
  cases ho : Opcode.ofNumber (Fields.ofWord word).op.toNat with
  | none => simp
  | some o => cases hc : (Fields.ofWord word).check o <;> simp [hc]

end Sys2Proof
end

