-- ==== Sys2Proof/Laws/State.lean ====
section
/-! SUPPORT. One lemma per field per state update, each true by unfolding, so that no later proof unfolds a record
update; and what each update does to the reading of one register. -/

namespace Sys2Proof.Machine

/-! ### `setReg` -/

@[simp] theorem setReg_regs (s : State) (r : Reg) (v : Word) : (s.setReg r v).regs = s.regs.set r.index v := rfl
@[simp] theorem setReg_pc (s : State) (r : Reg) (v : Word) : (s.setReg r v).pc = s.pc := rfl
@[simp] theorem setReg_flags (s : State) (r : Reg) (v : Word) : (s.setReg r v).flags = s.flags := rfl
@[simp] theorem setReg_run (s : State) (r : Reg) (v : Word) : (s.setReg r v).run = s.run := rfl
@[simp] theorem setReg_err (s : State) (r : Reg) (v : Word) : (s.setReg r v).err = s.err := rfl
@[simp] theorem setReg_icount (s : State) (r : Reg) (v : Word) : (s.setReg r v).icount = s.icount := rfl
@[simp] theorem setReg_stk (s : State) (r : Reg) (v : Word) : (s.setReg r v).stk = s.stk := rfl
@[simp] theorem setReg_config (s : State) (r : Reg) (v : Word) : (s.setReg r v).config = s.config := rfl
@[simp] theorem setReg_events (s : State) (r : Reg) (v : Word) : (s.setReg r v).events = s.events := rfl
@[simp] theorem setReg_answers (s : State) (r : Reg) (v : Word) : (s.setReg r v).answers = s.answers := rfl

/-! ### `wrreg` -/

@[simp] theorem wrreg_regs (s : State) (r : Reg) (w : Width) (v : BitVec w.bits) : (s.wrreg r w v).regs = s.regs.set r.index (v.setWidth 64) := rfl
@[simp] theorem wrreg_pc (s : State) (r : Reg) (w : Width) (v : BitVec w.bits) : (s.wrreg r w v).pc = s.pc := rfl
@[simp] theorem wrreg_flags (s : State) (r : Reg) (w : Width) (v : BitVec w.bits) : (s.wrreg r w v).flags = s.flags := rfl
@[simp] theorem wrreg_run (s : State) (r : Reg) (w : Width) (v : BitVec w.bits) : (s.wrreg r w v).run = s.run := rfl
@[simp] theorem wrreg_err (s : State) (r : Reg) (w : Width) (v : BitVec w.bits) : (s.wrreg r w v).err = s.err := rfl
@[simp] theorem wrreg_icount (s : State) (r : Reg) (w : Width) (v : BitVec w.bits) : (s.wrreg r w v).icount = s.icount := rfl
@[simp] theorem wrreg_stk (s : State) (r : Reg) (w : Width) (v : BitVec w.bits) : (s.wrreg r w v).stk = s.stk := rfl
@[simp] theorem wrreg_config (s : State) (r : Reg) (w : Width) (v : BitVec w.bits) : (s.wrreg r w v).config = s.config := rfl
@[simp] theorem wrreg_events (s : State) (r : Reg) (w : Width) (v : BitVec w.bits) : (s.wrreg r w v).events = s.events := rfl
@[simp] theorem wrreg_answers (s : State) (r : Reg) (w : Width) (v : BitVec w.bits) : (s.wrreg r w v).answers = s.answers := rfl

/-! ### `setflags` -/

@[simp] theorem setflags_regs (s : State) (w : Width) (r : BitVec w.bits) (ovf : Bool) : (s.setflags w r ovf).regs = s.regs := rfl
@[simp] theorem setflags_pc (s : State) (w : Width) (r : BitVec w.bits) (ovf : Bool) : (s.setflags w r ovf).pc = s.pc := rfl
@[simp] theorem setflags_flags (s : State) (w : Width) (r : BitVec w.bits) (ovf : Bool) : (s.setflags w r ovf).flags = flagsOf w.bits r ovf := rfl
@[simp] theorem setflags_run (s : State) (w : Width) (r : BitVec w.bits) (ovf : Bool) : (s.setflags w r ovf).run = s.run := rfl
@[simp] theorem setflags_err (s : State) (w : Width) (r : BitVec w.bits) (ovf : Bool) : (s.setflags w r ovf).err = s.err := rfl
@[simp] theorem setflags_icount (s : State) (w : Width) (r : BitVec w.bits) (ovf : Bool) : (s.setflags w r ovf).icount = s.icount := rfl
@[simp] theorem setflags_stk (s : State) (w : Width) (r : BitVec w.bits) (ovf : Bool) : (s.setflags w r ovf).stk = s.stk := rfl
@[simp] theorem setflags_config (s : State) (w : Width) (r : BitVec w.bits) (ovf : Bool) : (s.setflags w r ovf).config = s.config := rfl
@[simp] theorem setflags_events (s : State) (w : Width) (r : BitVec w.bits) (ovf : Bool) : (s.setflags w r ovf).events = s.events := rfl
@[simp] theorem setflags_answers (s : State) (w : Width) (r : BitVec w.bits) (ovf : Bool) : (s.setflags w r ovf).answers = s.answers := rfl
@[simp] theorem setflags_reg (s : State) (w : Width) (r : BitVec w.bits) (ovf : Bool) (q : Reg) : (s.setflags w r ovf).reg q = s.reg q := rfl
@[simp] theorem setflags_spNat (s : State) (w : Width) (r : BitVec w.bits) (ovf : Bool) : (s.setflags w r ovf).spNat = s.spNat := rfl

/-! ### `setPc` -/

@[simp] theorem setPc_regs (s : State) (t : Word) : (s.setPc t).regs = s.regs := rfl
@[simp] theorem setPc_pc (s : State) (t : Word) : (s.setPc t).pc = t := rfl
@[simp] theorem setPc_flags (s : State) (t : Word) : (s.setPc t).flags = s.flags := rfl
@[simp] theorem setPc_run (s : State) (t : Word) : (s.setPc t).run = s.run := rfl
@[simp] theorem setPc_err (s : State) (t : Word) : (s.setPc t).err = s.err := rfl
@[simp] theorem setPc_icount (s : State) (t : Word) : (s.setPc t).icount = s.icount := rfl
@[simp] theorem setPc_stk (s : State) (t : Word) : (s.setPc t).stk = s.stk := rfl
@[simp] theorem setPc_config (s : State) (t : Word) : (s.setPc t).config = s.config := rfl
@[simp] theorem setPc_events (s : State) (t : Word) : (s.setPc t).events = s.events := rfl
@[simp] theorem setPc_answers (s : State) (t : Word) : (s.setPc t).answers = s.answers := rfl
@[simp] theorem setPc_reg (s : State) (t : Word) (q : Reg) : (s.setPc t).reg q = s.reg q := rfl
@[simp] theorem setPc_spNat (s : State) (t : Word) : (s.setPc t).spNat = s.spNat := rfl

/-! ### `count` -/

@[simp] theorem count_regs (s : State) : (s.count).regs = s.regs := rfl
@[simp] theorem count_pc (s : State) : (s.count).pc = s.pc := rfl
@[simp] theorem count_flags (s : State) : (s.count).flags = s.flags := rfl
@[simp] theorem count_run (s : State) : (s.count).run = s.run := rfl
@[simp] theorem count_err (s : State) : (s.count).err = s.err := rfl
@[simp] theorem count_icount (s : State) : (s.count).icount = s.icount + 1 := rfl
@[simp] theorem count_stk (s : State) : (s.count).stk = s.stk := rfl
@[simp] theorem count_config (s : State) : (s.count).config = s.config := rfl
@[simp] theorem count_events (s : State) : (s.count).events = s.events := rfl
@[simp] theorem count_answers (s : State) : (s.count).answers = s.answers := rfl
@[simp] theorem count_reg (s : State) (q : Reg) : (s.count).reg q = s.reg q := rfl
@[simp] theorem count_spNat (s : State) : (s.count).spNat = s.spNat := rfl

/-! ### `halt` -/

@[simp] theorem halt_regs (s : State) : (s.halt).regs = s.regs := rfl
@[simp] theorem halt_pc (s : State) : (s.halt).pc = s.pc := rfl
@[simp] theorem halt_flags (s : State) : (s.halt).flags = s.flags := rfl
@[simp] theorem halt_run (s : State) : (s.halt).run = .stopped := rfl
@[simp] theorem halt_err (s : State) : (s.halt).err = s.err := rfl
@[simp] theorem halt_icount (s : State) : (s.halt).icount = s.icount := rfl
@[simp] theorem halt_stk (s : State) : (s.halt).stk = s.stk := rfl
@[simp] theorem halt_config (s : State) : (s.halt).config = s.config := rfl
@[simp] theorem halt_events (s : State) : (s.halt).events = s.events := rfl
@[simp] theorem halt_answers (s : State) : (s.halt).answers = s.answers := rfl
@[simp] theorem halt_reg (s : State) (q : Reg) : (s.halt).reg q = s.reg q := rfl
@[simp] theorem halt_spNat (s : State) : (s.halt).spNat = s.spNat := rfl

/-! ### `retire` -/

@[simp] theorem retire_regs (s : State) : (s.retire).regs = s.regs := rfl
@[simp] theorem retire_pc (s : State) : (s.retire).pc = s.pc + 1 := rfl
@[simp] theorem retire_flags (s : State) : (s.retire).flags = s.flags := rfl
@[simp] theorem retire_run (s : State) : (s.retire).run = s.run := rfl
@[simp] theorem retire_err (s : State) : (s.retire).err = s.err := rfl
@[simp] theorem retire_icount (s : State) : (s.retire).icount = s.icount + 1 := rfl
@[simp] theorem retire_stk (s : State) : (s.retire).stk = s.stk := rfl
@[simp] theorem retire_config (s : State) : (s.retire).config = s.config := rfl
@[simp] theorem retire_events (s : State) : (s.retire).events = s.events := rfl
@[simp] theorem retire_answers (s : State) : (s.retire).answers = s.answers := rfl
@[simp] theorem retire_reg (s : State) (q : Reg) : (s.retire).reg q = s.reg q := rfl
@[simp] theorem retire_spNat (s : State) : (s.retire).spNat = s.spNat := rfl

/-! ### `abort` -/

@[simp] theorem abort_regs (s : State) (e : Error) : (s.abort e).regs = s.regs := rfl
@[simp] theorem abort_pc (s : State) (e : Error) : (s.abort e).pc = s.pc := rfl
@[simp] theorem abort_flags (s : State) (e : Error) : (s.abort e).flags = s.flags := rfl
@[simp] theorem abort_run (s : State) (e : Error) : (s.abort e).run = .stopped := rfl
@[simp] theorem abort_err (s : State) (e : Error) : (s.abort e).err = some e := rfl
@[simp] theorem abort_icount (s : State) (e : Error) : (s.abort e).icount = s.icount := rfl
@[simp] theorem abort_stk (s : State) (e : Error) : (s.abort e).stk = s.stk := rfl
@[simp] theorem abort_config (s : State) (e : Error) : (s.abort e).config = s.config := rfl
@[simp] theorem abort_events (s : State) (e : Error) : (s.abort e).events = s.events := rfl
@[simp] theorem abort_answers (s : State) (e : Error) : (s.abort e).answers = s.answers := rfl
@[simp] theorem abort_reg (s : State) (e : Error) (q : Reg) : (s.abort e).reg q = s.reg q := rfl
@[simp] theorem abort_spNat (s : State) (e : Error) : (s.abort e).spNat = s.spNat := rfl

/-! ### `record` -/

@[simp] theorem record_regs (s : State) (e : Event) : (s.record e).regs = s.regs := rfl
@[simp] theorem record_pc (s : State) (e : Event) : (s.record e).pc = s.pc := rfl
@[simp] theorem record_flags (s : State) (e : Event) : (s.record e).flags = s.flags := rfl
@[simp] theorem record_run (s : State) (e : Event) : (s.record e).run = s.run := rfl
@[simp] theorem record_err (s : State) (e : Event) : (s.record e).err = s.err := rfl
@[simp] theorem record_icount (s : State) (e : Event) : (s.record e).icount = s.icount := rfl
@[simp] theorem record_stk (s : State) (e : Event) : (s.record e).stk = s.stk := rfl
@[simp] theorem record_config (s : State) (e : Event) : (s.record e).config = s.config := rfl
@[simp] theorem record_events (s : State) (e : Event) : (s.record e).events = s.events ++ [e] := rfl
@[simp] theorem record_answers (s : State) (e : Event) : (s.record e).answers = s.answers.tail := rfl
@[simp] theorem record_reg (s : State) (e : Event) (q : Reg) : (s.record e).reg q = s.reg q := rfl
@[simp] theorem record_spNat (s : State) (e : Event) : (s.record e).spNat = s.spNat := rfl

/-! ### `withReg` -/

@[simp] theorem withReg_regs (s : State) (r : Reg) (v : Nat) : (s.withReg r v).regs = s.regs.set r.index (BitVec.ofNat 64 v) := rfl
@[simp] theorem withReg_pc (s : State) (r : Reg) (v : Nat) : (s.withReg r v).pc = s.pc := rfl
@[simp] theorem withReg_flags (s : State) (r : Reg) (v : Nat) : (s.withReg r v).flags = s.flags := rfl
@[simp] theorem withReg_run (s : State) (r : Reg) (v : Nat) : (s.withReg r v).run = s.run := rfl
@[simp] theorem withReg_err (s : State) (r : Reg) (v : Nat) : (s.withReg r v).err = s.err := rfl
@[simp] theorem withReg_icount (s : State) (r : Reg) (v : Nat) : (s.withReg r v).icount = s.icount := rfl
@[simp] theorem withReg_stk (s : State) (r : Reg) (v : Nat) : (s.withReg r v).stk = s.stk := rfl
@[simp] theorem withReg_config (s : State) (r : Reg) (v : Nat) : (s.withReg r v).config = s.config := rfl
@[simp] theorem withReg_events (s : State) (r : Reg) (v : Nat) : (s.withReg r v).events = s.events := rfl
@[simp] theorem withReg_answers (s : State) (r : Reg) (v : Nat) : (s.withReg r v).answers = s.answers := rfl

/-! ### `advanced` -/

@[simp] theorem advanced_regs (s : State) : (s.advanced).regs = s.regs := rfl
@[simp] theorem advanced_pc (s : State) : (s.advanced).pc = s.pc + 1 := rfl
@[simp] theorem advanced_flags (s : State) : (s.advanced).flags = s.flags := rfl
@[simp] theorem advanced_run (s : State) : (s.advanced).run = s.run := rfl
@[simp] theorem advanced_err (s : State) : (s.advanced).err = s.err := rfl
@[simp] theorem advanced_icount (s : State) : (s.advanced).icount = s.icount + 1 := rfl
@[simp] theorem advanced_stk (s : State) : (s.advanced).stk = s.stk := rfl
@[simp] theorem advanced_config (s : State) : (s.advanced).config = s.config := rfl
@[simp] theorem advanced_events (s : State) : (s.advanced).events = s.events := rfl
@[simp] theorem advanced_answers (s : State) : (s.advanced).answers = s.answers := rfl
@[simp] theorem advanced_reg (s : State) (q : Reg) : (s.advanced).reg q = s.reg q := rfl
@[simp] theorem advanced_spNat (s : State) : (s.advanced).spNat = s.spNat := rfl

/-! ### Registers -/

/-- Reading a register after writing one (10_state.md R22: no aliases, nothing hardwired). -/
@[simp] theorem setReg_reg (s : State) (r q : Reg) (v : Word) :
    (s.setReg r v).reg q = if q = r then v else s.reg q := by
  by_cases h : q = r
  · subst h; simp [State.reg]
  · simp [State.reg, h, Vector.getElem_set_ne _ _ (reg_index_val_ne h)]

@[simp] theorem wrreg_reg (s : State) (r q : Reg) (w : Width) (v : BitVec w.bits) :
    (s.wrreg r w v).reg q = if q = r then v.setWidth 64 else s.reg q := setReg_reg s r q _

@[simp] theorem withReg_reg (s : State) (r q : Reg) (v : Nat) :
    (s.withReg r v).reg q = if q = r then BitVec.ofNat 64 v else s.reg q := setReg_reg s r q _

/-- Two register files that read alike are equal. -/
theorem regs_ext {s t : State} (h : ∀ r, s.reg r = t.reg r) : s.regs = t.regs := by
  have key : ∀ i : Fin 17, ∃ r : Reg, r.index = i := fun i => by
    cases hr : Reg.ofIndex i.val with
    | none => have := ofIndex_eq_none.1 hr; omega
    | some r => exact ⟨r, Fin.ext (ofIndex_eq_some.1 hr).symm⟩
  apply Vector.ext
  intro i hi
  obtain ⟨r, hr⟩ := key ⟨i, hi⟩
  have := h r
  simpa [State.reg, hr] using this

end Sys2Proof.Machine
end

