-- ==== Sys2Proof/Laws/Memory.lean ====
section
/-! SUPPORT. The stack buffer: a read after a write, what a write leaves alone, and the canonical form, for one byte and
for n bytes (20_memory.md R61, R62, R65, R70). -/

namespace Sys2Proof.Machine

/-! ### One byte -/

theorem lookupCell_insertCell (l : List Host.Cell) (a k : Nat) (b : Byte) :
    lookupCell (insertCell l a b) k = if k = a then some b else lookupCell l k := by
  induction l with
  | nil => simp [insertCell, lookupCell, eq_comm]
  | cons c rest ih =>
    obtain ⟨x, y⟩ := c
    simp only [insertCell]
    split_ifs with h1 h2 h3 h3 <;> simp only [lookupCell, ih] <;> split_ifs <;> first | rfl | omega

@[simp] theorem read_write (m : Memory) (a k : Nat) (b : Byte) :
    (m.write a b).read k = if k = a then b else m.read k := by
  simp only [Memory.read, Memory.write, lookupCell_insertCell]
  split <;> simp

theorem mem_insertCell {l : List Host.Cell} {a : Nat} {b : Byte} {c : Host.Cell} (h : c ∈ insertCell l a b) :
    c = (a, b) ∨ c ∈ l := by
  induction l with
  | nil => simpa [insertCell] using h
  | cons d rest ih =>
    obtain ⟨x, y⟩ := d
    simp only [insertCell] at h
    split_ifs at h with h1 h2
    · simpa using h
    · rcases List.mem_cons.1 h with h | h
      · exact .inl h
      · exact .inr (List.mem_cons_of_mem _ h)
    · rcases List.mem_cons.1 h with h | h
      · exact .inr (h ▸ List.mem_cons_self)
      · rcases ih h with h | h
        · exact .inl h
        · exact .inr (List.mem_cons_of_mem _ h)

/-- A write keeps the canonical form. -/
theorem write_wf {m : Memory} (a : Nat) (b : Byte) (h : m.wf) : (m.write a b).wf := by
  obtain ⟨l⟩ := m
  simp only [Memory.wf, Memory.write] at h ⊢
  induction l with
  | nil => simp [insertCell]
  | cons d rest ih =>
    obtain ⟨x, y⟩ := d
    rw [List.pairwise_cons] at h
    simp only [insertCell]
    split_ifs with h1 h2
    · refine List.pairwise_cons.2 ⟨fun c hc => ?_, List.pairwise_cons.2 h⟩
      rcases List.mem_cons.1 hc with rfl | hc
      · exact h1
      · exact lt_trans h1 (h.1 c hc)
    · subst h2; exact List.pairwise_cons.2 h
    · refine List.pairwise_cons.2 ⟨fun c hc => ?_, ih h.2⟩
      rcases mem_insertCell hc with rfl | hc
      · show x < a; omega
      · exact h.1 c hc

/-- Canonical buffers that list the same bytes are equal data. -/
theorem memory_ext {m n : Memory} (hm : m.wf) (hn : n.wf)
    (h : ∀ a, lookupCell m.cells a = lookupCell n.cells a) : m = n := by
  have none_of : ∀ (l : List Host.Cell) (a : Nat), (∀ c ∈ l, a < c.1) → lookupCell l a = none := by
    intro l a hl
    induction l with
    | nil => rfl
    | cons c rest ih =>
      have h1 := hl c List.mem_cons_self
      rw [lookupCell, if_neg (by omega)]
      exact ih fun d hd => hl d (List.mem_cons_of_mem _ hd)
  obtain ⟨l⟩ := m
  obtain ⟨k⟩ := n
  congr 1
  simp only [Memory.wf] at hm hn
  simp only at h
  induction l generalizing k with
  | nil =>
    cases k with
    | nil => rfl
    | cons c rest => have := h c.1; simp [lookupCell] at this
  | cons c rest ih =>
    cases k with
    | nil => have := h c.1; simp [lookupCell] at this
    | cons d rest' =>
      rw [List.pairwise_cons] at hm hn
      obtain ⟨x, b⟩ := c
      obtain ⟨y, e⟩ := d
      have hxy : x = y := by
        rcases Nat.lt_trichotomy x y with hlt | heq | hgt
        · have h1 := h x
          rw [lookupCell, if_pos rfl, lookupCell, if_neg (by omega),
            none_of rest' x fun c hc => lt_trans hlt (hn.1 c hc)] at h1
          cases h1
        · exact heq
        · have h1 := h y
          rw [lookupCell, if_neg (by omega), none_of rest y fun c hc => lt_trans hgt (hm.1 c hc),
            lookupCell, if_pos rfl] at h1
          cases h1
      subst hxy
      have hb : b = e := by have h1 := h x; simpa [lookupCell] using h1
      subst hb
      rw [ih hm.2 rest' hn.2 fun a => ?_]
      by_cases ha : x = a
      · subst ha
        rw [none_of rest x hm.1, none_of rest' x hn.1]
      · have h1 := h a
        rwa [lookupCell, if_neg ha, lookupCell, if_neg ha] at h1

/-! ### Several bytes -/

/-- A byte outside the stored range reads as before (20_memory.md R62: it "changes nothing else"). -/
theorem read_writeBytes_outside {m : Memory} {a n v k : Nat} (h : k < a ∨ a + n ≤ k) :
    (m.writeBytes a n v).read k = m.read k := by
  induction n generalizing m a v with
  | zero => rfl
  | succ n ih =>
    rw [Memory.writeBytes, ih (by omega), read_write, if_neg (by omega)]

/-- Byte k of the value stands at offset a + k (20_memory.md R62). -/
theorem read_writeBytes_inside {m : Memory} {a n v k : Nat} (h : k < n) :
    (m.writeBytes a n v).read (a + k) = BitVec.ofNat 8 (v / 256 ^ k) := by
  induction n generalizing m a v k with
  | zero => omega
  | succ n ih =>
    rw [Memory.writeBytes]
    cases k with
    | zero => rw [read_writeBytes_outside (by omega), read_write]; simp
    | succ k =>
      have h1 := @ih (m.write a (BitVec.ofNat 8 v)) (a + 1) (v / 256) k (by omega)
      rw [show a + 1 + k = a + (k + 1) by omega] at h1
      rw [h1, Nat.div_div_eq_div_mul, pow_succ, Nat.mul_comm 256]

/-- Bytes read are determined by the bytes there. -/
theorem readBytes_congr {m m' : Memory} {a n : Nat} (h : ∀ k, a ≤ k → k < a + n → m.read k = m'.read k) :
    m.readBytes a n = m'.readBytes a n := by
  induction n generalizing a with
  | zero => rfl
  | succ n ih =>
    rw [Memory.readBytes, Memory.readBytes, h a (by omega) (by omega), ih fun k h1 h2 => h k (by omega) (by omega)]

theorem readBytes_lt (m : Memory) (a n : Nat) : m.readBytes a n < 256 ^ n := by
  induction n generalizing a with
  | zero => simp [Memory.readBytes]
  | succ n ih =>
    have h1 := ih (a + 1)
    have h2 := (m.read a).isLt
    rw [Memory.readBytes, pow_succ]
    omega

/-- A read of what was just stored gives the value's low n bytes (20_memory.md R61, R62). -/
theorem readBytes_writeBytes (m : Memory) (a n v : Nat) :
    (m.writeBytes a n v).readBytes a n = v % 256 ^ n := by
  induction n generalizing m a v with
  | zero => simp [Memory.readBytes, Nat.mod_one]
  | succ n ih =>
    rw [Memory.readBytes, Memory.writeBytes, ih, read_writeBytes_outside (by omega), read_write, if_pos rfl,
      BitVec.toNat_ofNat]
    show v % 256 + 256 * (v / 256 % 256 ^ n) = v % 256 ^ (n + 1)
    rw [pow_succ, Nat.mul_comm (256 ^ n), Nat.mod_mul]

/-- A store of n bytes keeps the canonical form. -/
theorem writeBytes_wf {m : Memory} (a n v : Nat) (h : m.wf) : (m.writeBytes a n v).wf := by
  induction n generalizing m a v with
  | zero => exact h
  | succ n ih => exact ih _ _ (write_wf _ _ h)

/-- A store of n bytes lists no offset but those it stores to. -/
theorem mem_writeBytes {m : Memory} {a n v : Nat} {c : Host.Cell} (h : c ∈ (m.writeBytes a n v).cells) :
    c ∈ m.cells ∨ (a ≤ c.1 ∧ c.1 < a + n) := by
  induction n generalizing m a v with
  | zero => exact .inl h
  | succ n ih =>
    rcases ih h with h | h
    · rcases mem_insertCell h with rfl | h
      · exact .inr ⟨le_rfl, by simp⟩
      · exact .inl h
    · exact .inr ⟨by omega, by omega⟩

theorem lookupCell_filter (l : List Host.Cell) {n a : Nat} (h : a < n) :
    lookupCell (l.filter fun c => decide (c.1 < n)) a = lookupCell l a := by
  induction l with
  | nil => rfl
  | cons c t ih =>
    obtain ⟨k, b⟩ := c
    by_cases hk : k < n
    · simp only [List.filter_cons, hk, decide_true, if_true, lookupCell, ih]
    · rw [lookupCell, if_neg (by omega), ← ih, List.filter_cons_of_neg (by simpa using hk)]

/-- A view shows the bytes of the buffer below its limit and no other (46_print.md R250). -/
theorem stackView_read (s : State) (a : Nat) :
    s.stackView.read a = if a < min s.spNat s.config.stackCap then some (s.stk.read a) else none := by
  unfold StackView.read
  by_cases h : a < min s.spNat s.config.stackCap
  · have h2 : a < s.stackView.limit := h
    rw [if_pos h, if_pos h2]
    exact congrArg (fun o : Option Byte => some (o.getD (Config.stackInit a))) (lookupCell_filter s.stk.cells h)
  · have h2 : ¬a < s.stackView.limit := h
    rw [if_neg h, if_neg h2]

/-- The view of the stack is in canonical form (46_print.md R250). -/
theorem stackView_wf {s : State} (h : s.stk.wf) : s.stackView.bytes.wf := h.filter _

end Sys2Proof.Machine
end

