-- ==== Sys2Proof/Laws/Ops.lean ====
section
/-! SUPPORT. One lemma per shared operation that says all it can do: the bounds checks, the two halves of a stack access,
the resolver, the ends of a step, and emission. -/

namespace Sys2Proof.Machine

/-! ### The stack -/

/-- Moving the pointer up by n (45_stack.md R240). -/
theorem setReg_sp_add (s : State) (n : Nat) :
    s.setReg .sp (s.reg .sp + BitVec.ofNat 64 n) = s.withReg .sp (s.spNat + n) := by
  simp only [State.setReg, State.withReg, State.spNat, BitVec.ofNat_add, BitVec.ofNat_toNat, BitVec.setWidth_eq]

/-- Moving the pointer down by n, when it is at least n (45_stack.md R241). -/
theorem setReg_sp_sub (s : State) (n : Nat) (h : n ≤ s.spNat) :
    s.setReg .sp (s.reg .sp - BitVec.ofNat 64 n) = s.withReg .sp (s.spNat - n) := by
  have h2 : s.spNat < 2 ^ 64 := (s.reg .sp).isLt
  have : s.reg .sp - BitVec.ofNat 64 n = BitVec.ofNat 64 (s.spNat - n) := by
    apply BitVec.eq_of_toNat_eq
    simp only [BitVec.toNat_sub, BitVec.toNat_ofNat]
    change (2 ^ 64 - n % 2 ^ 64 + s.spNat) % 2 ^ 64 = _
    omega
  simp only [State.setReg, State.withReg, this]

/-- A push of n bytes either overflows, or stores at `x[SP]` and moves the pointer up: nothing else, and never a fault
(20_memory.md R68, 45_stack.md R240). -/
theorem pushBytes_eq (s : State) (n v : Nat) :
    s.pushBytes n v =
      if s.config.stackCap < s.spNat + n then .error (.raise .stackOverflow)
      else .ok { s.withReg .sp (s.spNat + n) with stk := s.stk.writeBytes s.spNat n v } := by
  unfold State.pushBytes State.stackWriteCheck State.memWrite
  by_cases h : s.config.stackCap < s.spNat + n
  · simp [h]
  · simp only [h, Nat.not_lt.1 h, if_true, if_false]
    exact congrArg Except.ok (congrArg (fun u : State => { u with stk := s.stk.writeBytes s.spNat n v }) (setReg_sp_add s n))

/-- A pop of n bytes either overflows (a pointer above the capacity), or underflows, or reads the n bytes below the
pointer and moves it down: nothing else, and never a fault (20_memory.md R68, 45_stack.md R241). -/
theorem popBytes_eq (s : State) (n : Nat) :
    s.popBytes n =
      if s.config.stackCap < s.spNat then .error (.raise .stackOverflow)
      else if s.spNat < n then .error (.raise .stackUnderflow)
      else .ok (s.stk.readBytes (s.spNat - n) n, s.withReg .sp (s.spNat - n)) := by
  unfold State.popBytes State.stackReadCheck State.memRead
  by_cases h : s.config.stackCap < s.spNat
  · simp [h]
  · by_cases h2 : s.spNat < n
    · simp [h, h2]
    · have h3 : s.spNat - n + n ≤ s.config.stackCap := by omega
      simp [h, h2, h3, setReg_sp_sub s n (by omega)]

/-! ### Values -/

theorem rdreg_toNat (s : State) (r : Reg) (w : Width) : (s.rdreg r w).toNat = s.regValue r w := by
  simp [State.rdreg, State.regValue]

theorem bits_pos (w : Width) : 0 < w.bits := by cases w <;> decide

theorem bits_le (w : Width) : w.bits ≤ 64 := by cases w <;> decide

theorem two_pow_bits (w : Width) : 2 ^ w.bits = 256 ^ w.bytes := by cases w <;> rfl

theorem maxVal_succ (w : Width) : w.maxVal + 1 = 2 ^ w.bits := by cases w <;> rfl

/-- A well-formed operand resolves to its value (40_engine_cycle.md R150). -/
theorem resolve_toNat {s : State} {src : Operand} {w : Width} (h : src.wf w = true) :
    (s.resolve src w).toNat = s.operandValue src w := by
  cases src with
  | reg r => exact rdreg_toNat s r w
  | imm v =>
    have h1 : v.toNat ≤ w.maxVal := by simpa [Operand.wf, immFits] using h
    have h2 := maxVal_succ w
    simp only [State.resolve, State.operandValue, BitVec.toNat_setWidth]
    exact Nat.mod_eq_of_lt (by omega)

theorem operandValue_lt {s : State} {src : Operand} {w : Width} (h : src.wf w = true) :
    s.operandValue src w < 2 ^ w.bits := by
  rw [← resolve_toNat h]; exact (s.resolve src w).isLt

/-- Every 64-bit literal fits the Word width (30_encoding.md R96). -/
theorem wf_word (src : Operand) : src.wf .word = true := by
  cases src with
  | reg r => rfl
  | imm v =>
    have h1 := v.isLt
    have h2 := maxVal_succ .word
    simp only [Width.bits] at h2
    exact decide_eq_true (by omega)

/-- An operand of Word width resolves to its value (40_engine_cycle.md R150). -/
theorem resolve_word (s : State) (src : Operand) :
    s.resolve src .word = BitVec.ofNat 64 (s.operandValue src .word) := by
  have key : ∀ u : BitVec 64, u = BitVec.ofNat 64 u.toNat := fun u => by simp
  rw [← resolve_toNat (wf_word src)]
  exact key _

theorem regValue_lt (s : State) (r : Reg) (w : Width) : s.regValue r w < 2 ^ w.bits :=
  Nat.mod_lt _ (Nat.two_pow_pos _)

/-- The zero-extending write of a W-bit number (10_state.md R24). -/
theorem wrreg_ofNat (s : State) (r : Reg) (w : Width) (v : Nat) :
    s.wrreg r w (BitVec.ofNat w.bits v) = s.withReg r (v % 2 ^ w.bits) := by
  have : (BitVec.ofNat w.bits v).setWidth 64 = BitVec.ofNat 64 (v % 2 ^ w.bits) := by
    apply BitVec.eq_of_toNat_eq
    simp
  simp [State.wrreg, State.setReg, State.withReg, this]

theorem wrreg_eq_withReg (s : State) (r : Reg) (w : Width) (v : BitVec w.bits) :
    s.wrreg r w v = s.withReg r v.toNat := by
  have := wrreg_ofNat s r w v.toNat
  rwa [BitVec.ofNat_toNat, BitVec.setWidth_eq, Nat.mod_eq_of_lt v.isLt] at this

/-- The flags of a W-bit value, in numbers (40_engine_cycle.md R152). -/
theorem flagsOf_eq (w : Width) (r : BitVec w.bits) (ovf : Bool) : flagsOf w.bits r ovf = flagsOfNat w r.toNat ovf := by
  simp [flagsOf, flagsOfNat, BitVec.msb_eq_decide]

/-! ### Ends of a step -/

@[simp] theorem finish_ok (s t : State) : s.finish (.ok t) = .next t.retire := rfl
@[simp] theorem finish_raise (s : State) (e : ExecError) :
    s.finish (.error (.raise e)) = .next (s.abort (.execute e)) := rfl
@[simp] theorem finishRedirected_ok (s t : State) : s.finishRedirected (.ok t) = .next t.count := rfl
@[simp] theorem finishRedirected_raise (s : State) (e : ExecError) :
    s.finishRedirected (.error (.raise e)) = .next (s.abort (.execute e)) := rfl

/-- An emission either succeeds, with the event recorded and the sequencer's work done, or aborts with IO, the event
recorded all the same (46_print.md R250). -/
theorem emitThenRetire_cases (s t : State) (e : Event) :
    (s.nextAnswer = .ok ∧ s.emitThenRetire t e = (t.record e).retire) ∨
    (∃ msg, s.nextAnswer = .ioFault msg ∧ s.emitThenRetire t e = (s.record e).abort (.execute (.io msg))) := by
  unfold State.emitThenRetire
  cases h : s.nextAnswer with
  | ok => exact .inl ⟨rfl, rfl⟩
  | ioFault msg => exact .inr ⟨msg, rfl, rfl⟩

end Sys2Proof.Machine
end

