-- ==== Sys2Proof/Laws/Exec.lean ====
section
/-! SUPPORT. `exec` read off the abstract form: one equation per operation, whichever constructor the instruction is;
and the inversion lemma that says once all that an instruction can do, which later proofs cite instead of unfolding. -/

namespace Sys2Proof.Machine

/-- The execute rule of an abstract instruction (40_engine_cycle.md R144). -/
def execForm (f : Form) (s : State) : Result :=
  match f with
  | .stop => execStop s
  | .ret => execRet s
  | .unary .not w rd => bitNot w rd s
  | .unary .push w rd => push w rd s
  | .unary .pop w rd => pop w rd s
  | .printRegister r => execPrintRegister r s
  | .target .jump src => jump src s
  | .target .call src => call src s
  | .target .printStack src => printStack src s
  | .binary .set w rd src => assign w rd src s
  | .binary .add w rd src => addition w rd src s
  | .binary .sub w rd src => subtraction w rd src s
  | .binary .mul w rd src => multiplication w rd src s
  | .binary .div w rd src => division w rd src s
  | .binary .rem w rd src => remainder w rd src s
  | .binary .and w rd src => bitAnd w rd src s
  | .binary .or w rd src => bitOr w rd src s
  | .binary .xor w rd src => bitXor w rd src s
  | .binary .test w rd src => bitTest w rd src s
  | .binary .compare w rd src => comparison w rd src s
  | .setIndirect w ri rv => setIndirect w ri rv s

/-- Every constructor's meaning is its form's rule. -/
theorem exec_eq_execForm (i : Instr) (s : State) : exec i s = execForm i.toForm s := by cases i <;> rfl

theorem exec_ofForm (f : Form) (s : State) : exec (Instr.ofForm f) s = execForm f s := by
  rw [exec_eq_execForm, toForm_ofForm]

theorem exec_binary (o : BinOp) (w : Width) (rd : Reg) (src : Operand) (s : State) :
    exec (Instr.binary o w rd src) s = execForm (.binary o w rd src) s := exec_ofForm _ s

theorem exec_unary (o : UnOp) (w : Width) (rd : Reg) (s : State) :
    exec (Instr.unary o w rd) s = execForm (.unary o w rd) s := exec_ofForm _ s

theorem exec_target (o : TargetOp) (src : Operand) (s : State) :
    exec (Instr.target o src) s = execForm (.target o src) s := exec_ofForm _ s

theorem exec_setIndirect (w : Width) (ri rv : Reg) (s : State) :
    exec (Instr.setIndirect w ri rv) s = setIndirect w ri rv s := exec_ofForm _ s

/-! ### All that an instruction can do -/

/-- A successful execution of `f` from `s` to `t`, field by field: what it may change and what it leaves alone. -/
structure Success (f : Form) (s t : State) : Prop where
  err : t.err = s.err
  config : t.config = s.config
  icount : t.icount = s.icount + 1
  run : f.opcode ≠ .stop → t.run = s.run
  pc : f.opcode.redirects = false → t.pc = s.pc + 1
  flagsKept : f.opcode.writesFlags = false → t.flags = s.flags
  flagsSet : f.opcode.writesFlags = true →
    ∃ (w : Width) (r : Nat) (ovf : Bool), r < 2 ^ w.bits ∧ t.flags = flagsOfNat w r ovf
  regs : ∀ r, f.mayWrite s r = false → t.reg r = s.reg r
  stk : ∃ v, t.stk = s.stk.writeBytes s.spNat f.storeBytes v
  room : f.storeBytes = 0 ∨ s.spNat + f.storeBytes ≤ s.config.stackCap
  events : t.events = s.events ∨ ∃ e, t.events = s.events ++ [e]

/-- The three ways an instruction ends: an error that aborts from the state before its writes, an emission that faults
(the event stays recorded), or success. There is always a next state. -/
inductive Effect (f : Form) (s : State) : Result → Prop where
  | raised (e : ExecError) : Effect f s (.next (s.abort (.execute e)))
  | ioFault (ev : Event) (msg : Token) : Effect f s (.next ((s.record ev).abort (.execute (.io msg))))
  | success (t : State) (h : Success f s t) : Effect f s (.next t)

theorem set_reg_ne {s t : State} {rd q : Reg} {v : Nat} (h : t.regs = (s.withReg rd v).regs) (hq : q ≠ rd) :
    t.reg q = s.reg q := by
  have h1 : t.reg q = (s.withReg rd v).reg q := by simp only [State.reg, h]
  rw [h1, withReg_reg, if_neg hq]

/-- Success of an instruction that writes one register and all flags. -/
theorem alu2_effect (f : Form) (s : State) (op : AluOp) (w : Width) (rd : Reg) (src : Operand)
    (hf : f.opcode.writesFlags = true) (h0 : f.storeBytes = 0)
    (hr : ∀ r, f.mayWrite s r = false → r ≠ rd) : Effect f s (s.finish (s.alu2 op w rd src)) := by
  unfold State.alu2
  cases op w.bits (s.rdreg rd w) (s.resolve src w) with
  | error e => exact .raised e
  | ok p =>
    obtain ⟨r, ovf⟩ := p
    refine .success _ ⟨rfl, rfl, rfl, fun _ => rfl, fun _ => rfl, fun h => by simp [hf] at h, fun _ =>
      ⟨w, r.toNat, ovf, r.isLt, flagsOf_eq w r ovf⟩, fun q hq => ?_, ⟨0, by rw [h0]; rfl⟩, .inl h0, .inl rfl⟩
    show (((s.wrreg rd w r).setflags w r ovf).retire).reg q = s.reg q
    simp [hr q hq]

/-- Success of an instruction that writes the flags alone. -/
theorem aluFlags_effect (f : Form) (s : State) (op : AluOp) (w : Width) (ra : Reg) (src : Operand)
    (hf : f.opcode.writesFlags = true) (h0 : f.storeBytes = 0) : Effect f s (s.finish (s.aluFlags op w ra src)) := by
  unfold State.aluFlags
  cases op w.bits (s.rdreg ra w) (s.resolve src w) with
  | error e => exact .raised e
  | ok p =>
    obtain ⟨r, ovf⟩ := p
    exact .success _ ⟨rfl, rfl, rfl, fun _ => rfl, fun _ => rfl, fun h => by simp [hf] at h, fun _ =>
      ⟨w, r.toNat, ovf, r.isLt, flagsOf_eq w r ovf⟩, fun q _ => rfl, ⟨0, by rw [h0]; rfl⟩, .inl h0, .inl rfl⟩

/-- An emission followed by the sequencer. -/
theorem emit_effect (f : Form) (s t : State) (e : Event) (ht : t = s ∨ (t = s.halt ∧ f.opcode = .stop))
    (hf : f.opcode.writesFlags = false) (h0 : f.storeBytes = 0) : Effect f s (.next (s.emitThenRetire t e)) := by
  rcases emitThenRetire_cases s t e with ⟨_, h⟩ | ⟨msg, _, h⟩
  · rw [h]
    rcases ht with rfl | ⟨rfl, hstop⟩
    · exact .success _ ⟨rfl, rfl, rfl, fun _ => rfl, fun _ => rfl, fun _ => rfl, fun h => by simp [hf] at h,
        fun q _ => rfl, ⟨0, by rw [h0]; rfl⟩, .inl h0, .inr ⟨e, rfl⟩⟩
    · exact .success _ ⟨rfl, rfl, rfl, fun h => absurd hstop h, fun _ => rfl, fun _ => rfl,
        fun h => by simp [hf] at h, fun q _ => rfl, ⟨0, by rw [h0]; rfl⟩, .inl h0, .inr ⟨e, rfl⟩⟩
  · rw [h]; exact .ioFault e msg

theorem ret_effect (s : State) : Effect .ret s (execRet s) := by
  unfold execRet
  rw [popBytes_eq]
  split_ifs with h1 h2
  · exact .raised _
  · exact .raised _
  · simp only [finishRedirected_ok]
    generalize BitVec.ofNat 64 (s.stk.readBytes (s.spNat - 8) 8) + 1 = t
    refine .success _ ⟨by simp, by simp, by simp, by simp, fun h => ?_, by simp, fun h => ?_, fun q hq => ?_,
      ⟨0, by simp [Form.storeBytes, Memory.writeBytes]⟩, .inl rfl, by simp⟩
    · simp [Form.opcode, Opcode.redirects] at h
    · simp [Form.opcode, Opcode.writesFlags] at h
    · have : q ≠ .sp := by simpa [Form.mayWrite] using hq
      simp [this]

theorem push_effect (w : Width) (rs : Reg) (s : State) : Effect (.unary .push w rs) s (push w rs s) := by
  unfold push
  rw [pushBytes_eq]
  split_ifs with h1
  · exact .raised _
  · simp only [finish_ok]
    refine .success _ ⟨by simp, by simp, by simp, by simp, by simp, by simp, fun h => ?_, fun q hq => ?_,
      ⟨_, by simp only [retire_stk]; rfl⟩, .inr (Nat.not_lt.1 h1), by simp⟩
    · simp [Form.opcode, Opcode.writesFlags] at h
    · have hne : q ≠ .sp := by simpa [Form.mayWrite] using hq
      exact set_reg_ne (rd := .sp) (v := s.spNat + w.bytes) (by simp) hne

theorem call_effect (src : Operand) (s : State) : Effect (.target .call src) s (call src s) := by
  unfold call
  rw [pushBytes_eq]
  split_ifs with h1
  · exact .raised _
  · simp only [finishRedirected_ok]
    refine .success _ ⟨by simp, by simp, by simp, by simp, fun h => ?_, by simp, fun h => ?_, fun q hq => ?_,
      ⟨_, by simp only [count_stk, setPc_stk]; rfl⟩, .inr (Nat.not_lt.1 h1), by simp⟩
    · simp [Form.opcode, Opcode.redirects] at h
    · simp [Form.opcode, Opcode.writesFlags] at h
    · have hne : q ≠ .sp := by simpa [Form.mayWrite] using hq
      exact set_reg_ne (rd := .sp) (v := s.spNat + 8) (by simp) hne

theorem pop_effect (w : Width) (rd : Reg) (s : State) : Effect (.unary .pop w rd) s (pop w rd s) := by
  unfold pop
  rw [popBytes_eq]
  split_ifs with h1 h2
  · exact .raised _
  · exact .raised _
  · simp only [finish_ok]
    refine .success _ ⟨by simp, by simp, by simp, by simp, by simp, by simp, fun h => ?_, fun q hq => ?_,
      ⟨0, by simp [Form.storeBytes, Memory.writeBytes]⟩, .inl rfl, by simp⟩
    · simp [Form.opcode, Opcode.writesFlags] at h
    · have : q ≠ rd ∧ q ≠ .sp := by simpa [Form.mayWrite] using hq
      simp [this.1, this.2]

/-- Success of an instruction that writes one register and no flag. -/
theorem wrreg_effect (f : Form) (w : Width) (rd : Reg) (v : BitVec w.bits) (s : State)
    (hf : f.opcode.writesFlags = false) (h0 : f.storeBytes = 0) (hr : ∀ q, f.mayWrite s q = false → q ≠ rd) :
    Effect f s (s.finish (.ok (s.wrreg rd w v))) := by
  refine .success _ ⟨rfl, rfl, rfl, fun _ => rfl, fun _ => rfl, fun _ => rfl, fun h => by simp [hf] at h,
    fun q hq => ?_, ⟨0, by rw [h0]; rfl⟩, .inl h0, .inl rfl⟩
  show ((s.wrreg rd w v).retire).reg q = s.reg q
  simp [hr q hq]

theorem not_effect (w : Width) (rd : Reg) (s : State) : Effect (.unary .not w rd) s (bitNot w rd s) := by
  unfold bitNot
  generalize aluNot w.bits (s.rdreg rd w) = r
  refine .success _ ⟨rfl, rfl, rfl, fun _ => rfl, fun _ => rfl, fun h => ?_,
    fun _ => ⟨w, r.toNat, false, r.isLt, flagsOf_eq w r false⟩, fun q hq => ?_, ⟨0, rfl⟩, .inl rfl, .inl rfl⟩
  · simp [Form.opcode, Opcode.writesFlags] at h
  · have : q ≠ rd := by simpa [Form.mayWrite] using hq
    show (((s.wrreg rd w r).setflags w r false).retire).reg q = s.reg q
    simp [this]

theorem setIndirect_effect (w : Width) (ri rv : Reg) (s : State) :
    Effect (.setIndirect w ri rv) s (setIndirect w ri rv s) := by
  unfold setIndirect
  cases hid : Reg.ofIndex (s.reg ri).toNat with
  | none => simp only [hid]; exact .raised _
  | some rd =>
    simp only [hid]
    refine wrreg_effect (.setIndirect w ri rv) w rd _ s rfl rfl fun q hq => ?_
    rintro rfl
    have := ofIndex_eq_some.1 hid
    simp [Form.mayWrite, this] at hq

theorem stop_effect (s : State) : Effect .stop s (execStop s) := by
  unfold execStop
  split
  · exact emit_effect _ s _ _ (.inr ⟨rfl, rfl⟩) rfl rfl
  · exact .success _ ⟨rfl, rfl, rfl, fun h => absurd rfl h, fun _ => rfl, fun _ => rfl,
      fun h => by simp [Form.opcode, Opcode.writesFlags] at h, fun q _ => rfl, ⟨0, rfl⟩, .inl rfl, .inl rfl⟩

theorem jump_effect (src : Operand) (s : State) : Effect (.target .jump src) s (jump src s) := by
  unfold jump
  refine .success _ ⟨rfl, rfl, rfl, fun _ => rfl, fun h => ?_, fun _ => rfl, fun h => ?_, fun q _ => rfl, ⟨0, rfl⟩,
    .inl rfl, .inl rfl⟩
  · simp [Form.opcode, Opcode.redirects] at h
  · simp [Form.opcode, Opcode.writesFlags] at h

/-- Every instruction, in every state, ends in one of the three ways. -/
theorem exec_effect (i : Instr) (s : State) : Effect i.toForm s (exec i s) := by
  rw [exec_eq_execForm]
  generalize i.toForm = f
  rcases f with _ | _ | ⟨o, w, rd⟩ | r | ⟨o, src⟩ | ⟨o, w, rd, src⟩ | ⟨w, ri, rv⟩
  · exact stop_effect s
  · exact ret_effect s
  · cases o with
    | not => exact not_effect w rd s
    | push => exact push_effect w rd s
    | pop => exact pop_effect w rd s
  · exact emit_effect _ s s _ (.inl rfl) rfl rfl
  · cases o with
    | jump => exact jump_effect src s
    | call => exact call_effect src s
    | printStack => exact emit_effect _ s s _ (.inl rfl) rfl rfl
  · cases o with
    | set => exact wrreg_effect (.binary .set w rd src) w rd _ s rfl rfl fun q hq => by simpa [Form.mayWrite] using hq
    | test => exact aluFlags_effect (.binary .test w rd src) s aluAnd w rd src rfl rfl
    | compare => exact aluFlags_effect (.binary .compare w rd src) s aluSub w rd src rfl rfl
    | add =>
      exact alu2_effect (.binary .add w rd src) s aluAdd w rd src rfl rfl fun q hq => by simpa [Form.mayWrite] using hq
    | sub =>
      exact alu2_effect (.binary .sub w rd src) s aluSub w rd src rfl rfl fun q hq => by simpa [Form.mayWrite] using hq
    | mul =>
      exact alu2_effect (.binary .mul w rd src) s aluMul w rd src rfl rfl fun q hq => by simpa [Form.mayWrite] using hq
    | div =>
      exact alu2_effect (.binary .div w rd src) s aluDiv w rd src rfl rfl fun q hq => by simpa [Form.mayWrite] using hq
    | rem =>
      exact alu2_effect (.binary .rem w rd src) s aluRem w rd src rfl rfl fun q hq => by simpa [Form.mayWrite] using hq
    | and =>
      exact alu2_effect (.binary .and w rd src) s aluAnd w rd src rfl rfl fun q hq => by simpa [Form.mayWrite] using hq
    | or =>
      exact alu2_effect (.binary .or w rd src) s aluOr w rd src rfl rfl fun q hq => by simpa [Form.mayWrite] using hq
    | xor =>
      exact alu2_effect (.binary .xor w rd src) s aluXor w rd src rfl rfl fun q hq => by simpa [Form.mayWrite] using hq
  · exact setIndirect_effect w ri rv s

end Sys2Proof.Machine
end

