-- ==== Sys2Proof/Laws/PerInstr.lean ====
section
/-! SUPPORT. Facts about every instruction as syntax, one lemma per constructor. -/

/-- The instruction and its abstract form stand for each other, and agree on well-formedness (30_encoding.md R90). -/
def Sys2Proof.Laws.FormRoundTrip.Statement (i : Sys2Proof.Instr) : Prop :=
  Sys2Proof.Instr.ofForm i.toForm = i ∧ i.toForm.wf = i.wf

namespace Sys2Proof.Laws.FormRoundTrip

theorem stop : Statement (.stop) := ⟨rfl, rfl⟩
theorem setByteR (rd : Reg) (rs : Reg) : Statement (.setByteR rd rs) := ⟨rfl, rfl⟩
theorem setByteI (rd : Reg) (imm : Word) : Statement (.setByteI rd imm) := ⟨rfl, rfl⟩
theorem setQuarterR (rd : Reg) (rs : Reg) : Statement (.setQuarterR rd rs) := ⟨rfl, rfl⟩
theorem setQuarterI (rd : Reg) (imm : Word) : Statement (.setQuarterI rd imm) := ⟨rfl, rfl⟩
theorem setHalfR (rd : Reg) (rs : Reg) : Statement (.setHalfR rd rs) := ⟨rfl, rfl⟩
theorem setHalfI (rd : Reg) (imm : Word) : Statement (.setHalfI rd imm) := ⟨rfl, rfl⟩
theorem setWordR (rd : Reg) (rs : Reg) : Statement (.setWordR rd rs) := ⟨rfl, rfl⟩
theorem setWordI (rd : Reg) (imm : Word) : Statement (.setWordI rd imm) := ⟨rfl, rfl⟩
theorem addByteR (rd : Reg) (rs : Reg) : Statement (.addByteR rd rs) := ⟨rfl, rfl⟩
theorem addByteI (rd : Reg) (imm : Word) : Statement (.addByteI rd imm) := ⟨rfl, rfl⟩
theorem addQuarterR (rd : Reg) (rs : Reg) : Statement (.addQuarterR rd rs) := ⟨rfl, rfl⟩
theorem addQuarterI (rd : Reg) (imm : Word) : Statement (.addQuarterI rd imm) := ⟨rfl, rfl⟩
theorem addHalfR (rd : Reg) (rs : Reg) : Statement (.addHalfR rd rs) := ⟨rfl, rfl⟩
theorem addHalfI (rd : Reg) (imm : Word) : Statement (.addHalfI rd imm) := ⟨rfl, rfl⟩
theorem addWordR (rd : Reg) (rs : Reg) : Statement (.addWordR rd rs) := ⟨rfl, rfl⟩
theorem addWordI (rd : Reg) (imm : Word) : Statement (.addWordI rd imm) := ⟨rfl, rfl⟩
theorem subByteR (rd : Reg) (rs : Reg) : Statement (.subByteR rd rs) := ⟨rfl, rfl⟩
theorem subByteI (rd : Reg) (imm : Word) : Statement (.subByteI rd imm) := ⟨rfl, rfl⟩
theorem subQuarterR (rd : Reg) (rs : Reg) : Statement (.subQuarterR rd rs) := ⟨rfl, rfl⟩
theorem subQuarterI (rd : Reg) (imm : Word) : Statement (.subQuarterI rd imm) := ⟨rfl, rfl⟩
theorem subHalfR (rd : Reg) (rs : Reg) : Statement (.subHalfR rd rs) := ⟨rfl, rfl⟩
theorem subHalfI (rd : Reg) (imm : Word) : Statement (.subHalfI rd imm) := ⟨rfl, rfl⟩
theorem subWordR (rd : Reg) (rs : Reg) : Statement (.subWordR rd rs) := ⟨rfl, rfl⟩
theorem subWordI (rd : Reg) (imm : Word) : Statement (.subWordI rd imm) := ⟨rfl, rfl⟩
theorem mulByteR (rd : Reg) (rs : Reg) : Statement (.mulByteR rd rs) := ⟨rfl, rfl⟩
theorem mulByteI (rd : Reg) (imm : Word) : Statement (.mulByteI rd imm) := ⟨rfl, rfl⟩
theorem mulQuarterR (rd : Reg) (rs : Reg) : Statement (.mulQuarterR rd rs) := ⟨rfl, rfl⟩
theorem mulQuarterI (rd : Reg) (imm : Word) : Statement (.mulQuarterI rd imm) := ⟨rfl, rfl⟩
theorem mulHalfR (rd : Reg) (rs : Reg) : Statement (.mulHalfR rd rs) := ⟨rfl, rfl⟩
theorem mulHalfI (rd : Reg) (imm : Word) : Statement (.mulHalfI rd imm) := ⟨rfl, rfl⟩
theorem mulWordR (rd : Reg) (rs : Reg) : Statement (.mulWordR rd rs) := ⟨rfl, rfl⟩
theorem mulWordI (rd : Reg) (imm : Word) : Statement (.mulWordI rd imm) := ⟨rfl, rfl⟩
theorem divByteR (rd : Reg) (rs : Reg) : Statement (.divByteR rd rs) := ⟨rfl, rfl⟩
theorem divByteI (rd : Reg) (imm : Word) : Statement (.divByteI rd imm) := ⟨rfl, rfl⟩
theorem divQuarterR (rd : Reg) (rs : Reg) : Statement (.divQuarterR rd rs) := ⟨rfl, rfl⟩
theorem divQuarterI (rd : Reg) (imm : Word) : Statement (.divQuarterI rd imm) := ⟨rfl, rfl⟩
theorem divHalfR (rd : Reg) (rs : Reg) : Statement (.divHalfR rd rs) := ⟨rfl, rfl⟩
theorem divHalfI (rd : Reg) (imm : Word) : Statement (.divHalfI rd imm) := ⟨rfl, rfl⟩
theorem divWordR (rd : Reg) (rs : Reg) : Statement (.divWordR rd rs) := ⟨rfl, rfl⟩
theorem divWordI (rd : Reg) (imm : Word) : Statement (.divWordI rd imm) := ⟨rfl, rfl⟩
theorem remByteR (rd : Reg) (rs : Reg) : Statement (.remByteR rd rs) := ⟨rfl, rfl⟩
theorem remByteI (rd : Reg) (imm : Word) : Statement (.remByteI rd imm) := ⟨rfl, rfl⟩
theorem remQuarterR (rd : Reg) (rs : Reg) : Statement (.remQuarterR rd rs) := ⟨rfl, rfl⟩
theorem remQuarterI (rd : Reg) (imm : Word) : Statement (.remQuarterI rd imm) := ⟨rfl, rfl⟩
theorem remHalfR (rd : Reg) (rs : Reg) : Statement (.remHalfR rd rs) := ⟨rfl, rfl⟩
theorem remHalfI (rd : Reg) (imm : Word) : Statement (.remHalfI rd imm) := ⟨rfl, rfl⟩
theorem remWordR (rd : Reg) (rs : Reg) : Statement (.remWordR rd rs) := ⟨rfl, rfl⟩
theorem remWordI (rd : Reg) (imm : Word) : Statement (.remWordI rd imm) := ⟨rfl, rfl⟩
theorem pushByte (rd : Reg) : Statement (.pushByte rd) := ⟨rfl, rfl⟩
theorem pushQuarter (rd : Reg) : Statement (.pushQuarter rd) := ⟨rfl, rfl⟩
theorem pushHalf (rd : Reg) : Statement (.pushHalf rd) := ⟨rfl, rfl⟩
theorem pushWord (rd : Reg) : Statement (.pushWord rd) := ⟨rfl, rfl⟩
theorem popByte (rd : Reg) : Statement (.popByte rd) := ⟨rfl, rfl⟩
theorem popQuarter (rd : Reg) : Statement (.popQuarter rd) := ⟨rfl, rfl⟩
theorem popHalf (rd : Reg) : Statement (.popHalf rd) := ⟨rfl, rfl⟩
theorem popWord (rd : Reg) : Statement (.popWord rd) := ⟨rfl, rfl⟩
theorem callR (rs : Reg) : Statement (.callR rs) := ⟨rfl, rfl⟩
theorem callI (imm : Word) : Statement (.callI imm) := ⟨rfl, rfl⟩
theorem ret : Statement (.ret) := ⟨rfl, rfl⟩
theorem andByteR (rd : Reg) (rs : Reg) : Statement (.andByteR rd rs) := ⟨rfl, rfl⟩
theorem andByteI (rd : Reg) (imm : Word) : Statement (.andByteI rd imm) := ⟨rfl, rfl⟩
theorem andQuarterR (rd : Reg) (rs : Reg) : Statement (.andQuarterR rd rs) := ⟨rfl, rfl⟩
theorem andQuarterI (rd : Reg) (imm : Word) : Statement (.andQuarterI rd imm) := ⟨rfl, rfl⟩
theorem andHalfR (rd : Reg) (rs : Reg) : Statement (.andHalfR rd rs) := ⟨rfl, rfl⟩
theorem andHalfI (rd : Reg) (imm : Word) : Statement (.andHalfI rd imm) := ⟨rfl, rfl⟩
theorem andWordR (rd : Reg) (rs : Reg) : Statement (.andWordR rd rs) := ⟨rfl, rfl⟩
theorem andWordI (rd : Reg) (imm : Word) : Statement (.andWordI rd imm) := ⟨rfl, rfl⟩
theorem orByteR (rd : Reg) (rs : Reg) : Statement (.orByteR rd rs) := ⟨rfl, rfl⟩
theorem orByteI (rd : Reg) (imm : Word) : Statement (.orByteI rd imm) := ⟨rfl, rfl⟩
theorem orQuarterR (rd : Reg) (rs : Reg) : Statement (.orQuarterR rd rs) := ⟨rfl, rfl⟩
theorem orQuarterI (rd : Reg) (imm : Word) : Statement (.orQuarterI rd imm) := ⟨rfl, rfl⟩
theorem orHalfR (rd : Reg) (rs : Reg) : Statement (.orHalfR rd rs) := ⟨rfl, rfl⟩
theorem orHalfI (rd : Reg) (imm : Word) : Statement (.orHalfI rd imm) := ⟨rfl, rfl⟩
theorem orWordR (rd : Reg) (rs : Reg) : Statement (.orWordR rd rs) := ⟨rfl, rfl⟩
theorem orWordI (rd : Reg) (imm : Word) : Statement (.orWordI rd imm) := ⟨rfl, rfl⟩
theorem xorByteR (rd : Reg) (rs : Reg) : Statement (.xorByteR rd rs) := ⟨rfl, rfl⟩
theorem xorByteI (rd : Reg) (imm : Word) : Statement (.xorByteI rd imm) := ⟨rfl, rfl⟩
theorem xorQuarterR (rd : Reg) (rs : Reg) : Statement (.xorQuarterR rd rs) := ⟨rfl, rfl⟩
theorem xorQuarterI (rd : Reg) (imm : Word) : Statement (.xorQuarterI rd imm) := ⟨rfl, rfl⟩
theorem xorHalfR (rd : Reg) (rs : Reg) : Statement (.xorHalfR rd rs) := ⟨rfl, rfl⟩
theorem xorHalfI (rd : Reg) (imm : Word) : Statement (.xorHalfI rd imm) := ⟨rfl, rfl⟩
theorem xorWordR (rd : Reg) (rs : Reg) : Statement (.xorWordR rd rs) := ⟨rfl, rfl⟩
theorem xorWordI (rd : Reg) (imm : Word) : Statement (.xorWordI rd imm) := ⟨rfl, rfl⟩
theorem notByte (rd : Reg) : Statement (.notByte rd) := ⟨rfl, rfl⟩
theorem notQuarter (rd : Reg) : Statement (.notQuarter rd) := ⟨rfl, rfl⟩
theorem notHalf (rd : Reg) : Statement (.notHalf rd) := ⟨rfl, rfl⟩
theorem notWord (rd : Reg) : Statement (.notWord rd) := ⟨rfl, rfl⟩
theorem testByteR (rd : Reg) (rs : Reg) : Statement (.testByteR rd rs) := ⟨rfl, rfl⟩
theorem testByteI (rd : Reg) (imm : Word) : Statement (.testByteI rd imm) := ⟨rfl, rfl⟩
theorem testQuarterR (rd : Reg) (rs : Reg) : Statement (.testQuarterR rd rs) := ⟨rfl, rfl⟩
theorem testQuarterI (rd : Reg) (imm : Word) : Statement (.testQuarterI rd imm) := ⟨rfl, rfl⟩
theorem testHalfR (rd : Reg) (rs : Reg) : Statement (.testHalfR rd rs) := ⟨rfl, rfl⟩
theorem testHalfI (rd : Reg) (imm : Word) : Statement (.testHalfI rd imm) := ⟨rfl, rfl⟩
theorem testWordR (rd : Reg) (rs : Reg) : Statement (.testWordR rd rs) := ⟨rfl, rfl⟩
theorem testWordI (rd : Reg) (imm : Word) : Statement (.testWordI rd imm) := ⟨rfl, rfl⟩
theorem compareByteR (rd : Reg) (rs : Reg) : Statement (.compareByteR rd rs) := ⟨rfl, rfl⟩
theorem compareByteI (rd : Reg) (imm : Word) : Statement (.compareByteI rd imm) := ⟨rfl, rfl⟩
theorem compareQuarterR (rd : Reg) (rs : Reg) : Statement (.compareQuarterR rd rs) := ⟨rfl, rfl⟩
theorem compareQuarterI (rd : Reg) (imm : Word) : Statement (.compareQuarterI rd imm) := ⟨rfl, rfl⟩
theorem compareHalfR (rd : Reg) (rs : Reg) : Statement (.compareHalfR rd rs) := ⟨rfl, rfl⟩
theorem compareHalfI (rd : Reg) (imm : Word) : Statement (.compareHalfI rd imm) := ⟨rfl, rfl⟩
theorem compareWordR (rd : Reg) (rs : Reg) : Statement (.compareWordR rd rs) := ⟨rfl, rfl⟩
theorem compareWordI (rd : Reg) (imm : Word) : Statement (.compareWordI rd imm) := ⟨rfl, rfl⟩
theorem jumpR (rs : Reg) : Statement (.jumpR rs) := ⟨rfl, rfl⟩
theorem jumpI (imm : Word) : Statement (.jumpI imm) := ⟨rfl, rfl⟩
theorem printRegister (rd : Reg) : Statement (.printRegister rd) := ⟨rfl, rfl⟩
theorem printStackR (rs : Reg) : Statement (.printStackR rs) := ⟨rfl, rfl⟩
theorem printStackI (imm : Word) : Statement (.printStackI imm) := ⟨rfl, rfl⟩
theorem setIndirectByte (ri : Reg) (rv : Reg) : Statement (.setIndirectByte ri rv) := ⟨rfl, rfl⟩
theorem setIndirectQuarter (ri : Reg) (rv : Reg) : Statement (.setIndirectQuarter ri rv) := ⟨rfl, rfl⟩
theorem setIndirectHalf (ri : Reg) (rv : Reg) : Statement (.setIndirectHalf ri rv) := ⟨rfl, rfl⟩
theorem setIndirectWord (ri : Reg) (rv : Reg) : Statement (.setIndirectWord ri rv) := ⟨rfl, rfl⟩

end Sys2Proof.Laws.FormRoundTrip
end

