-- ==== Sys2Proof/Laws/Step.lean ====
section
/-! SUPPORT. What one step can do, said once: the inversion of `step`, of the implicit stop, and of an instruction that
has a next state. -/

namespace Sys2Proof.Machine

/-- An instruction that answers `t` raised an error, had its emission fault, or succeeded. -/
theorem exec_cases {i : Instr} {s t : State} (h : exec i s = .next t) :
    (∃ e, t = s.abort (.execute e)) ∨ (∃ ev m, t = (s.record ev).abort (.execute (.io m))) ∨
      Success i.toForm s t := by
  have := exec_effect i s
  rw [h] at this
  cases this with
  | raised e => exact .inl ⟨e, rfl⟩
  | ioFault ev m => exact .inr (.inl ⟨ev, m, rfl⟩)
  | success _ h => exact .inr (.inr h)

/-- The implicit stop, its report emitted or not, and its report's fault (40_engine_cycle.md R147). -/
theorem implicitStop_cases (s : State) :
    s.implicitStop = s.halt ∨ s.implicitStop = s.halt.record (.countReport s.icount) ∨
      ∃ m, s.implicitStop = (s.halt.record (.countReport s.icount)).abort (.execute (.io m)) := by
  unfold State.implicitStop
  split
  · split
    · exact .inr (.inl rfl)
    · exact .inr (.inr ⟨_, rfl⟩)
  · exact .inl rfl

/-- What a step did: nothing in a stopped engine, an implicit stop, a decode error, or an instruction
(40_engine_cycle.md R141). -/
theorem step_cases {s t : State} (h : step s = .next t) :
    (s.run = .stopped ∧ t = s) ∨
    (s.run = .running ∧
      ((s.fetch = none ∧ t = s.implicitStop) ∨
       (∃ line e, s.fetch = some line ∧ decodeLine line = .error e ∧ t = s.abort (.decode e)) ∨
       ∃ line i, s.fetch = some line ∧ decodeLine line = .ok i ∧ exec i s = .next t)) := by
  unfold step at h
  split at h
  · cases h; exact .inl ⟨by assumption, rfl⟩
  · refine .inr ⟨by assumption, ?_⟩
    split at h
    · cases h; exact .inl ⟨by assumption, rfl⟩
    · split at h
      · cases h; exact .inr (.inl ⟨_, _, by assumption, by assumption, rfl⟩)
      · exact .inr (.inr ⟨_, _, by assumption, by assumption, h⟩)

end Sys2Proof.Machine
end

