-- ==== Sys2Proof/Laws/Text.lean ====
section
/-! SUPPORT. What a prover needs of the text level: mnemonic, register-name and literal lookups answer what was spelled,
and an operand that the parser accepts is well-formed. -/

namespace Sys2Proof

theorem ofName_name (r : Reg) : Reg.ofName r.name = some r := by cases r <;> decide

/-- Each mnemonic is found in the table of 30_encoding.md R93 with its operation and width. -/
theorem lookupMnemonic_mnemonic (o : Opcode) (w : Width) (h : o.widthless = false ∨ w = .word) :
    lookupMnemonic (o.mnemonic w) = some (o, w) := by
  rcases o with _ | _ | o | _ | o | o | _
  all_goals
    first
    | (cases o <;> cases w <;> first | decide | (simp [Opcode.widthless] at h))
    | (cases w <;> first | decide | (simp [Opcode.widthless] at h))

/-! ### Decimal literals -/

theorem digitValue_ofNat (d : Nat) (h : d < 10) : digitValue (Char.ofNat (48 + d)) = some d := by
  have : ∀ d : Fin 10, digitValue (Char.ofNat (48 + d.val)) = some d.val := by decide
  exact this ⟨d, h⟩

/-- Reading the digits of a number, whatever digits follow, continues the value read so far by it. -/
theorem digitsValue_decimalDigits (fuel n : Nat) (acc : Token) (k : Nat) (h : n < 10 ^ fuel) (hf : 0 < fuel) :
    digitsValue k (decimalDigits fuel n acc) =
      digitsValue (k * 10 ^ ((decimalDigits fuel n acc).length - acc.length) + n) acc ∧
    acc.length < (decimalDigits fuel n acc).length := by
  induction fuel generalizing n acc with
  | zero => omega
  | succ f ih =>
    unfold decimalDigits
    have hd := digitValue_ofNat (n % 10) (Nat.mod_lt _ (by norm_num))
    by_cases h0 : n / 10 = 0
    · simp only [h0, if_true, digitsValue, hd]
      simp
      congr 1; omega
    · simp only [h0, if_false]
      have hf : 0 < f := by
        rcases f with _ | f
        · simp at h; omega
        · omega
      obtain ⟨i1, i2⟩ := ih (n / 10) (Char.ofNat (48 + n % 10) :: acc) (by rw [Nat.pow_succ] at h; omega) hf
      refine ⟨?_, by simp at i2; omega⟩
      rw [i1]
      simp only [digitsValue, hd]
      congr 1
      simp only [List.length_cons] at i2 ⊢
      generalize (decimalDigits f (n / 10) (Char.ofNat (48 + n % 10) :: acc)).length = l at *
      rw [show l - acc.length = (l - (acc.length + 1)) + 1 by omega, Nat.pow_succ]
      ring_nf
      omega

/-- A literal begins with a digit, so with no letter that begins a register name. -/
theorem decimalDigits_head (fuel n : Nat) (acc : Token) (hf : 0 < fuel) :
    ∃ c rest, decimalDigits fuel n acc = c :: rest ∧ c ≠ 'r' ∧ c ≠ 's' := by
  have key : ∀ d : Fin 10, Char.ofNat (48 + d.val) ≠ 'r' ∧ Char.ofNat (48 + d.val) ≠ 's' := by decide
  induction fuel generalizing n acc with
  | zero => omega
  | succ f ih =>
    unfold decimalDigits
    have := key ⟨n % 10, Nat.mod_lt _ (by norm_num)⟩
    by_cases h0 : n / 10 = 0
    · simp only [h0, if_true]; exact ⟨_, _, rfl, this⟩
    · simp only [h0, if_false]
      by_cases hf : 0 < f
      · exact ih _ _ hf
      · obtain rfl : f = 0 := by omega
        exact ⟨_, _, rfl, this⟩

theorem ofName_none (c : Char) (rest : Token) (h : c ≠ 'r' ∧ c ≠ 's') : Reg.ofName (c :: rest) = none := by
  have hn : ∀ r : Reg, ∃ d t, r.name = d :: t ∧ (d = 'r' ∨ d = 's') := by
    intro r; cases r <;> exact ⟨_, _, rfl, by decide⟩
  simp only [Reg.ofName, List.find?_eq_none]
  intro r _
  obtain ⟨d, t, h1, h2⟩ := hn r
  simp [h1]
  rintro rfl
  rcases h2 with rfl | rfl <;> simp at h

/-- The token of a well-formed operand parses to it (30_encoding.md R95, R96). -/
theorem parseOperand_token (w : Width) (src : Operand) (h : src.wf w = true) :
    parseOperand w src.token = .ok src := by
  cases src with
  | reg r => simp [parseOperand, Operand.token, ofName_name]
  | imm v =>
    obtain ⟨c, rest, h1, h2⟩ := decimalDigits_head 20 v.toNat [] (by norm_num)
    have hl := (digitsValue_decimalDigits 20 v.toNat [] 0 (by have := v.isLt; omega) (by norm_num)).1
    simp only [parseOperand, Operand.token]
    have : literalValue (decimalDigits 20 v.toNat []) = some v.toNat := by
      simp [literalValue, hl, digitsValue]; simp [h1]
    rw [this, h1, ofName_none c rest h2]
    simp only [Operand.wf, immFits, decide_eq_true_eq] at h
    simp [h]

/-- An operand that the parser accepts is well-formed: literals are not wrapped (30_encoding.md R96). -/
theorem parseOperand_wf {w : Width} {t : Token} {o : Operand} (h : parseOperand w t = .ok o) : o.wf w = true := by
  unfold parseOperand at h
  split at h
  · cases h; rfl
  · split at h
    · split at h
      · rename_i hle
        cases h
        simp only [Operand.wf, immFits, decide_eq_true_eq, BitVec.toNat_ofNat]
        exact le_trans (Nat.mod_le _ _) hle
      · cases h
    · cases h

/-! ### What the token steps of R97 do when they accept -/

theorem takeReg_eq_ok {e : DecodeError} {ts : List Token} {v : Reg × List Token} (h : takeReg e ts = .ok v) :
    ∃ t, ts = t :: v.2 ∧ Reg.ofName t = some v.1 := by
  unfold takeReg at h
  split at h
  · cases h
  · split at h <;> cases h
    exact ⟨_, rfl, by assumption⟩

theorem takeOperand_eq_ok {w : Width} {e : DecodeError} {ts : List Token} {v : Operand × List Token}
    (h : takeOperand w e ts = .ok v) : ∃ t, ts = t :: v.2 ∧ parseOperand w t = .ok v.1 := by
  unfold takeOperand at h
  split at h
  · cases h
  · split at h <;> cases h
    exact ⟨_, rfl, by assumption⟩

theorem takeOperand_wf {w : Width} {e : DecodeError} {ts : List Token} {v : Operand × List Token}
    (h : takeOperand w e ts = .ok v) : v.1.wf w = true := by
  obtain ⟨_, _, h⟩ := takeOperand_eq_ok h
  exact parseOperand_wf h

theorem endOfLine_eq_ok {e : DecodeError} {ts : List Token} {v : Unit} (h : endOfLine e ts = .ok v) : ts = [] := by
  cases ts <;> simp [endOfLine] at h ⊢

/-- An accepted line is a mnemonic whose operand tokens are accepted (30_encoding.md R97). -/
theorem decodeText_eq_ok {t0 : Token} {args : List Token} {i : Instr} (h : decodeText (t0 :: args) = .ok i) :
    ∃ o w f, lookupMnemonic t0 = some (o, w) ∧
      parseArgs o w (.wrongArity (.tokens t0 o.shape.arity args.length)) args = .ok f ∧ i = Instr.ofForm f := by
  simp only [decodeText] at h
  split at h
  · cases h
  · split at h
    · cases h
    · cases h
      exact ⟨_, _, _, by assumption, by assumption, rfl⟩

/-- An instruction that the operand tokens spell is well-formed (30_encoding.md R97). -/
theorem parseArgs_wf {o : Opcode} {w : Width} {e : DecodeError} {args : List Token} {f : Form}
    (h : parseArgs o w e args = .ok f) : f.wf = true := by
  cases o <;> simp only [parseArgs, bind, Except.bind] at h <;> (repeat' split at h) <;> (try cases h) <;>
    (try rfl)
  · exact takeOperand_wf (by assumption)
  · exact takeOperand_wf (by assumption)

/-- An accepted line is a well-formed instruction (30_encoding.md R97). -/
theorem decodeText_wf {tokens : List Token} {i : Instr} (h : decodeText tokens = .ok i) : i.wf = true := by
  unfold decodeText at h
  split at h
  · cases h
  · split at h
    · cases h
    · split at h
      · cases h
      · rename_i hp
        cases h
        rw [wf_ofForm]
        exact parseArgs_wf hp

end Sys2Proof
end

