-- ==== Sys2Proof/Tests/Slice0.lean ====
section
/-! SUPPORT. The model's own tests, decided by the kernel. Expected results are those of spec/95_test_vectors.md, of the
worked encodings of 30_encoding.md R113 and of the bit layouts of 30_encoding.md R105 to R107; each comment names the
source. Below them, the witnesses: for every obligation with hypotheses, a concrete case that meets all of them. -/

namespace Sys2Proof.Tests

open Sys2Proof.Machine

/-! ### Helpers -/

/-- Three flags written as the vectors write them. -/
def zvs (z v s : Nat) : Flags := { z := decide (z = 1), v := decide (v = 1), s := decide (s = 1) }

/-- A register file with the listed values and 0 elsewhere. -/
def regFile (l : List (Reg × Nat)) : Vector Word 17 :=
  l.foldl (fun regs p => regs.set p.1.index (BitVec.ofNat 64 p.2)) (Vector.replicate 17 0)

/-- A stack buffer with the listed bytes written from an offset on. -/
def bytesFrom (a : Nat) (l : List Nat) : Memory :=
  { cells := (l.zipIdx a).map fun p => (p.2, BitVec.ofNat 8 p.1) }

/-- A running state of the default configuration with the given registers, whose sink answers ok once. -/
def start (regs : List (Reg × Nat)) : State := { State.reset with regs := regFile regs, answers := [.ok] }

/-- The state an instruction leaves, if it has a next state. -/
def after (r : Result) : Option State :=
  match r with
  | .next t => some t
  | _ => none

/-- A line of text as the loader delivers it. -/
def text (s : String) : Line := .text (tokenize s.toList)

/-- A line of text decodes to the instruction, and so does its word. -/
def reads (line : String) (word : InstrWord) (i : Instr) : Bool :=
  decide (decodeLine (text line) = .ok i) && decide (decodeWord word = .ok i)

/-- One row of the register vectors: a line, its word, registers and flags before and after. The row holds when line
and word decode to one instruction and executing it gives the registers, flags and error listed. -/
def row (line : String) (word : InstrWord) (before : List (Reg × Nat)) (f : Flags) (expect : List (Reg × Nat))
    (g : Flags) (err : Option Error := none) : Bool :=
  match decodeLine (text line), decodeWord word with
  | .ok i, .ok j =>
    decide (i = j) &&
      match exec i { start before with flags := f } with
      | .next t => decide (t.regs = regFile expect) && decide (t.flags = g) && decide (t.err = err)
      | _ => false
  | _, _ => false

/-- One row of the stack and control vectors: also `pc`, `icount` and the bytes of the stack buffer, before and after.
The bytes written are compared with the expected ones as lists. -/
def flow (line : String) (word : InstrWord) (before : List (Reg × Nat)) (pc count : Nat) (stk : Memory)
    (expect : List (Reg × Nat)) (pc' count' : Nat) (stk' : Memory) (err : Option Error := none) : Bool :=
  match decodeLine (text line), decodeWord word with
  | .ok i, .ok j =>
    decide (i = j) &&
      match exec i { start before with pc := BitVec.ofNat 64 pc, icount := BitVec.ofNat 64 count, stk := stk } with
      | .next t =>
        decide (t.regs = regFile expect) && decide (t.pc = BitVec.ofNat 64 pc') &&
          decide (t.icount = BitVec.ofNat 64 count') && decide (t.stk = stk') && decide (t.err = err)
      | _ => false
  | _, _ => false

/-! ### Decoding: every constructor, its word written out from the row of spec/opcode_table.json, and its line -/

/-- The 8 rows of Set (30_encoding.md R105 to R107). -/
theorem test_decode_set :
    [
      reads "set-byte r2 r8" 0x08100000000000000008#80 (.setByteR .r2 .r8),
      reads "set-byte r4 255" 0x092000000000000000FF#80 (.setByteI .r4 0xff),
      reads "set-quarter r8 sp" 0x0A400000000000000010#80 (.setQuarterR .r8 .sp),
      reads "set-quarter sp 4660" 0x0B800000000000001234#80 (.setQuarterI .sp 0x1234),
      reads "set-half r15 r3" 0x0C780000000000000003#80 (.setHalfR .r15 .r3),
      reads "set-half r1 4294967295" 0x0D0800000000FFFFFFFF#80 (.setHalfI .r1 0xffffffff),
      reads "set-word r2 r7" 0x0E100000000000000007#80 (.setWordR .r2 .r7),
      reads "set-word r4 1311768467463790320" 0x0F20123456789ABCDEF0#80 (.setWordI .r4 0x123456789abcdef0)
    ].all id = true := by decide

/-- The 8 rows of Addition (30_encoding.md R105 to R107). -/
theorem test_decode_addition :
    [
      reads "add-byte r8 r10" 0x1040000000000000000A#80 (.addByteR .r8 .r10),
      reads "add-byte sp 255" 0x118000000000000000FF#80 (.addByteI .sp 0xff),
      reads "add-quarter r15 r0" 0x12780000000000000000#80 (.addQuarterR .r15 .r0),
      reads "add-quarter r1 4660" 0x13080000000000001234#80 (.addQuarterI .r1 0x1234),
      reads "add-half r2 r8" 0x14100000000000000008#80 (.addHalfR .r2 .r8),
      reads "add-half r4 4294967295" 0x152000000000FFFFFFFF#80 (.addHalfI .r4 0xffffffff),
      reads "add-word r8 sp" 0x16400000000000000010#80 (.addWordR .r8 .sp),
      reads "add-word sp 1311768467463790320" 0x1780123456789ABCDEF0#80 (.addWordI .sp 0x123456789abcdef0)
    ].all id = true := by decide

/-- The 8 rows of Subtraction (30_encoding.md R105 to R107). -/
theorem test_decode_subtraction :
    [
      reads "sub-byte r15 r3" 0x18780000000000000003#80 (.subByteR .r15 .r3),
      reads "sub-byte r1 255" 0x190800000000000000FF#80 (.subByteI .r1 0xff),
      reads "sub-quarter r2 r7" 0x1A100000000000000007#80 (.subQuarterR .r2 .r7),
      reads "sub-quarter r4 4660" 0x1B200000000000001234#80 (.subQuarterI .r4 0x1234),
      reads "sub-half r8 r10" 0x1C40000000000000000A#80 (.subHalfR .r8 .r10),
      reads "sub-half sp 4294967295" 0x1D8000000000FFFFFFFF#80 (.subHalfI .sp 0xffffffff),
      reads "sub-word r15 r0" 0x1E780000000000000000#80 (.subWordR .r15 .r0),
      reads "sub-word r1 1311768467463790320" 0x1F08123456789ABCDEF0#80 (.subWordI .r1 0x123456789abcdef0)
    ].all id = true := by decide

/-- The 8 rows of Multiplication (30_encoding.md R105 to R107). -/
theorem test_decode_multiplication :
    [
      reads "mul-byte r2 r8" 0x20100000000000000008#80 (.mulByteR .r2 .r8),
      reads "mul-byte r4 255" 0x212000000000000000FF#80 (.mulByteI .r4 0xff),
      reads "mul-quarter r8 sp" 0x22400000000000000010#80 (.mulQuarterR .r8 .sp),
      reads "mul-quarter sp 4660" 0x23800000000000001234#80 (.mulQuarterI .sp 0x1234),
      reads "mul-half r15 r3" 0x24780000000000000003#80 (.mulHalfR .r15 .r3),
      reads "mul-half r1 4294967295" 0x250800000000FFFFFFFF#80 (.mulHalfI .r1 0xffffffff),
      reads "mul-word r2 r7" 0x26100000000000000007#80 (.mulWordR .r2 .r7),
      reads "mul-word r4 1311768467463790320" 0x2720123456789ABCDEF0#80 (.mulWordI .r4 0x123456789abcdef0)
    ].all id = true := by decide

/-- The 8 rows of Division (30_encoding.md R105 to R107). -/
theorem test_decode_division :
    [
      reads "div-byte r8 r10" 0x2840000000000000000A#80 (.divByteR .r8 .r10),
      reads "div-byte sp 255" 0x298000000000000000FF#80 (.divByteI .sp 0xff),
      reads "div-quarter r15 r0" 0x2A780000000000000000#80 (.divQuarterR .r15 .r0),
      reads "div-quarter r1 4660" 0x2B080000000000001234#80 (.divQuarterI .r1 0x1234),
      reads "div-half r2 r8" 0x2C100000000000000008#80 (.divHalfR .r2 .r8),
      reads "div-half r4 4294967295" 0x2D2000000000FFFFFFFF#80 (.divHalfI .r4 0xffffffff),
      reads "div-word r8 sp" 0x2E400000000000000010#80 (.divWordR .r8 .sp),
      reads "div-word sp 1311768467463790320" 0x2F80123456789ABCDEF0#80 (.divWordI .sp 0x123456789abcdef0)
    ].all id = true := by decide

/-- The 8 rows of Remainder (30_encoding.md R105 to R107). -/
theorem test_decode_remainder :
    [
      reads "rem-byte r15 r3" 0x30780000000000000003#80 (.remByteR .r15 .r3),
      reads "rem-byte r1 255" 0x310800000000000000FF#80 (.remByteI .r1 0xff),
      reads "rem-quarter r2 r7" 0x32100000000000000007#80 (.remQuarterR .r2 .r7),
      reads "rem-quarter r4 4660" 0x33200000000000001234#80 (.remQuarterI .r4 0x1234),
      reads "rem-half r8 r10" 0x3440000000000000000A#80 (.remHalfR .r8 .r10),
      reads "rem-half sp 4294967295" 0x358000000000FFFFFFFF#80 (.remHalfI .sp 0xffffffff),
      reads "rem-word r15 r0" 0x36780000000000000000#80 (.remWordR .r15 .r0),
      reads "rem-word r1 1311768467463790320" 0x3708123456789ABCDEF0#80 (.remWordI .r1 0x123456789abcdef0)
    ].all id = true := by decide

/-- The 8 rows of And (30_encoding.md R105 to R107). -/
theorem test_decode_and :
    [
      reads "and-byte r1 r8" 0x58080000000000000008#80 (.andByteR .r1 .r8),
      reads "and-byte r2 165" 0x591000000000000000A5#80 (.andByteI .r2 0xa5),
      reads "and-quarter r4 sp" 0x5A200000000000000010#80 (.andQuarterR .r4 .sp),
      reads "and-quarter r8 65535" 0x5B40000000000000FFFF#80 (.andQuarterI .r8 0xffff),
      reads "and-half sp r3" 0x5C800000000000000003#80 (.andHalfR .sp .r3),
      reads "and-half r15 305419896" 0x5D780000000012345678#80 (.andHalfI .r15 0x12345678),
      reads "and-word r1 r7" 0x5E080000000000000007#80 (.andWordR .r1 .r7),
      reads "and-word r2 18446744073709551615" 0x5F10FFFFFFFFFFFFFFFF#80 (.andWordI .r2 0xffffffffffffffff)
    ].all id = true := by decide

/-- The 8 rows of Or (30_encoding.md R105 to R107). -/
theorem test_decode_or :
    [
      reads "or-byte r4 r10" 0x6020000000000000000A#80 (.orByteR .r4 .r10),
      reads "or-byte r8 165" 0x614000000000000000A5#80 (.orByteI .r8 0xa5),
      reads "or-quarter sp r0" 0x62800000000000000000#80 (.orQuarterR .sp .r0),
      reads "or-quarter r15 65535" 0x6378000000000000FFFF#80 (.orQuarterI .r15 0xffff),
      reads "or-half r1 r8" 0x64080000000000000008#80 (.orHalfR .r1 .r8),
      reads "or-half r2 305419896" 0x65100000000012345678#80 (.orHalfI .r2 0x12345678),
      reads "or-word r4 sp" 0x66200000000000000010#80 (.orWordR .r4 .sp),
      reads "or-word r8 18446744073709551615" 0x6740FFFFFFFFFFFFFFFF#80 (.orWordI .r8 0xffffffffffffffff)
    ].all id = true := by decide

/-- The 8 rows of Xor (30_encoding.md R105 to R107). -/
theorem test_decode_xor :
    [
      reads "xor-byte sp r3" 0x68800000000000000003#80 (.xorByteR .sp .r3),
      reads "xor-byte r15 165" 0x697800000000000000A5#80 (.xorByteI .r15 0xa5),
      reads "xor-quarter r1 r7" 0x6A080000000000000007#80 (.xorQuarterR .r1 .r7),
      reads "xor-quarter r2 65535" 0x6B10000000000000FFFF#80 (.xorQuarterI .r2 0xffff),
      reads "xor-half r4 r10" 0x6C20000000000000000A#80 (.xorHalfR .r4 .r10),
      reads "xor-half r8 305419896" 0x6D400000000012345678#80 (.xorHalfI .r8 0x12345678),
      reads "xor-word sp r0" 0x6E800000000000000000#80 (.xorWordR .sp .r0),
      reads "xor-word r15 18446744073709551615" 0x6F78FFFFFFFFFFFFFFFF#80 (.xorWordI .r15 0xffffffffffffffff)
    ].all id = true := by decide

/-- The 8 rows of Test (30_encoding.md R105 to R107). -/
theorem test_decode_test :
    [
      reads "test-byte sp r3" 0x78800000000000000003#80 (.testByteR .sp .r3),
      reads "test-byte r15 165" 0x797800000000000000A5#80 (.testByteI .r15 0xa5),
      reads "test-quarter r1 r7" 0x7A080000000000000007#80 (.testQuarterR .r1 .r7),
      reads "test-quarter r2 65535" 0x7B10000000000000FFFF#80 (.testQuarterI .r2 0xffff),
      reads "test-half r4 r10" 0x7C20000000000000000A#80 (.testHalfR .r4 .r10),
      reads "test-half r8 305419896" 0x7D400000000012345678#80 (.testHalfI .r8 0x12345678),
      reads "test-word sp r0" 0x7E800000000000000000#80 (.testWordR .sp .r0),
      reads "test-word r15 18446744073709551615" 0x7F78FFFFFFFFFFFFFFFF#80 (.testWordI .r15 0xffffffffffffffff)
    ].all id = true := by decide

/-- The 8 rows of Compare (30_encoding.md R105 to R107). -/
theorem test_decode_compare :
    [
      reads "compare-byte r1 r8" 0x80080000000000000008#80 (.compareByteR .r1 .r8),
      reads "compare-byte r2 165" 0x811000000000000000A5#80 (.compareByteI .r2 0xa5),
      reads "compare-quarter r4 sp" 0x82200000000000000010#80 (.compareQuarterR .r4 .sp),
      reads "compare-quarter r8 65535" 0x8340000000000000FFFF#80 (.compareQuarterI .r8 0xffff),
      reads "compare-half sp r3" 0x84800000000000000003#80 (.compareHalfR .sp .r3),
      reads "compare-half r15 305419896" 0x85780000000012345678#80 (.compareHalfI .r15 0x12345678),
      reads "compare-word r1 r7" 0x86080000000000000007#80 (.compareWordR .r1 .r7),
      reads "compare-word r2 18446744073709551615" 0x8710FFFFFFFFFFFFFFFF#80 (.compareWordI .r2 0xffffffffffffffff)
    ].all id = true := by decide

/-- Stop, Return, Push, Pop, Not and PrintRegister (30_encoding.md R105 to R107). -/
theorem test_decode_one_register :
    [
      reads "stop" 0x00000000000000000000#80 .stop,
      reads "push-byte r2" 0x38100000000000000000#80 (.pushByte .r2),
      reads "push-quarter r4" 0x3A200000000000000000#80 (.pushQuarter .r4),
      reads "push-half r8" 0x3C400000000000000000#80 (.pushHalf .r8),
      reads "push-word sp" 0x3E800000000000000000#80 (.pushWord .sp),
      reads "pop-byte r15" 0x40780000000000000000#80 (.popByte .r15),
      reads "pop-quarter r1" 0x42080000000000000000#80 (.popQuarter .r1),
      reads "pop-half r2" 0x44100000000000000000#80 (.popHalf .r2),
      reads "pop-word r4" 0x46200000000000000000#80 (.popWord .r4),
      reads "return" 0x50000000000000000000#80 .ret,
      reads "not-byte r1" 0x70080000000000000000#80 (.notByte .r1),
      reads "not-quarter r2" 0x72100000000000000000#80 (.notQuarter .r2),
      reads "not-half r4" 0x74200000000000000000#80 (.notHalf .r4),
      reads "not-word r8" 0x76400000000000000000#80 (.notWord .r8),
      reads "print-register sp" 0x90800000000000000000#80 (.printRegister .sp)
    ].all id = true := by decide

/-- Call, Jump, PrintStack and SetIndirect (30_encoding.md R105 to R107). -/
theorem test_decode_targets_and_indirect :
    [
      reads "call r10" 0x4800000000000000000A#80 (.callR .r10),
      reads "call 1311768467463790320" 0x4900123456789ABCDEF0#80 (.callI 0x123456789abcdef0),
      reads "jump r10" 0x8800000000000000000A#80 (.jumpR .r10),
      reads "jump 18446744073709551615" 0x8900FFFFFFFFFFFFFFFF#80 (.jumpI 0xffffffffffffffff),
      reads "print-stack r0" 0x98000000000000000000#80 (.printStackR .r0),
      reads "print-stack 1311768467463790320" 0x9900123456789ABCDEF0#80 (.printStackI 0x123456789abcdef0),
      reads "set-indirect-byte r2 r8" 0xA0100000000000000008#80 (.setIndirectByte .r2 .r8),
      reads "set-indirect-quarter r4 sp" 0xA2200000000000000010#80 (.setIndirectQuarter .r4 .sp),
      reads "set-indirect-half r8 sp" 0xA4400000000000000010#80 (.setIndirectHalf .r8 .sp),
      reads "set-indirect-word sp r3" 0xA6800000000000000003#80 (.setIndirectWord .sp .r3)
    ].all id = true := by decide

/-! ### Decode errors -/

/-- A word is rejected with the error listed. -/
def rejects (word : InstrWord) (e : DecodeError) : Bool := decide (decodeWord word = .error e)

/-- A line of text is rejected with the error listed. -/
def rejectsText (line : String) (e : DecodeError) : Bool := decide (decodeLine (text line) = .error e)

/-- WrongArity with mnemonic, expected and found counts, as the vectors write it. -/
def arity (m : String) (e f : Nat) : DecodeError := .wrongArity (.tokens m.toList e f)

/-- Word decode vectors 3, 5 to 10, 12 to 20, 23 to 26, 29, 31 to 34, 38 of 95_test_vectors.md 2.8. -/
theorem test_word_decode_errors :
    [
      rejects 0xA8000000000000000000#80 (.unknownOpcode (.field 21)),
      rejects 0xFFFFFFFFFFFFFFFFFFFF#80 (.unknownOpcode (.field 31)),
      rejects 0x11880000000000000001#80 (.invalidRegister (.field 17)),
      rejects 0x10000000000000000011#80 (.invalidOperand (.field 17) .byte),
      rejects 0x10000000000000000031#80 (.invalidOperand (.field 49) .byte),
      rejects 0x10000000000000000020#80 (.wrongArity (.field 2)),
      rejects 0x11000000000000000100#80 (.invalidOperand (.field 256) .byte),
      rejects 0x1300000000000001FFFF#80 (.invalidOperand (.field 131071) .quarter),
      rejects 0x11010000000000000001#80 (.wrongArity (.field 2)),
      rejects 0x02000000000000000000#80 (.wrongArity (.field 0)),
      rejects 0x00000000000000000001#80 (.wrongArity (.field 0)),
      rejects 0x01000000000000000000#80 (.wrongArity (.field 0)),
      rejects 0x00080000000000000000#80 (.wrongArity (.field 0)),
      rejects 0x52000000000000000000#80 (.wrongArity (.field 10)),
      rejects 0x3E000000000000000001#80 (.wrongArity (.field 7)),
      rejects 0x3F000000000000000000#80 (.wrongArity (.field 7)),
      rejects 0x92000000000000000000#80 (.wrongArity (.field 18)),
      rejects 0x49080000000000000004#80 (.wrongArity (.field 9)),
      rejects 0x4B000000000000000004#80 (.wrongArity (.field 9)),
      rejects 0x49FFFFFFFFFFFFFFFFFF#80 (.wrongArity (.field 9)),
      rejects 0x88000000000000000011#80 (.invalidOperand (.field 17) .word),
      rejects 0xA6200000000000000011#80 (.invalidRegister (.field 17)),
      rejects 0xA7200000000000000005#80 (.wrongArity (.field 20)),
      rejects 0xA6200000000000000025#80 (.wrongArity (.field 20)),
      rejects 0xA6880000000000000005#80 (.invalidRegister (.field 17)),
      rejects 0x0D001122334455667788#80 (.invalidOperand (.field 1234605616436508552) .half)
    ].all id = true := by decide

/-- Text decode vectors 1 to 9, 11 to 14, 17, 21, 22, 25, 28, 38, 39, 42 to 45, 47 of 95_test_vectors.md 2.8. -/
theorem test_text_decode_errors :
    [
      rejectsText "add-byte r0" (arity "add-byte" 2 1),
      rejectsText "add-byte" (arity "add-byte" 2 0),
      rejectsText "add-byte r0 1 2" (arity "add-byte" 2 3),
      rejectsText "add-byte r16 1" (.invalidRegister (.token "r16".toList)),
      rejectsText "add-byte R0 1" (.invalidRegister (.token "R0".toList)),
      rejectsText "add-byte 1 r0" (.invalidRegister (.token "1".toList)),
      rejectsText "add-byte r0 -1" (.invalidOperand (.token "-1".toList) .byte),
      rejectsText "add-byte r0 0x10" (.invalidOperand (.token "0x10".toList) .byte),
      rejectsText "add-byte r0 256" (.invalidOperand (.token "256".toList) .byte),
      rejectsText "add-byte r0 1_0" (.invalidOperand (.token "1_0".toList) .byte),
      rejectsText "ADD-BYTE r0 1" (.unknownOpcode (.token "ADD-BYTE".toList)),
      rejectsText "add r0 1" (.unknownOpcode (.token "add".toList)),
      rejectsText "stop 0" (arity "stop" 0 1),
      rejectsText "call r16" (.invalidOperand (.token "r16".toList) .word),
      rejectsText "call 18446744073709551616" (.invalidOperand (.token "18446744073709551616".toList) .word),
      rejectsText "jump r3 r4" (arity "jump" 1 2),
      rejectsText "not-byte 5" (.invalidRegister (.token "5".toList)),
      rejectsText "set-indirect-word r4" (arity "set-indirect-word" 2 1),
      rejectsText "set-indirect-word 4 r5" (.invalidRegister (.token "4".toList)),
      rejectsText "add-byte r0 1 // inc" (arity "add-byte" 2 4),
      rejectsText "add-byte r16 1 2" (.invalidRegister (.token "r16".toList)),
      rejectsText "add-byte r0 x 2" (.invalidOperand (.token "x".toList) .byte),
      rejectsText "add-byte r16" (.invalidRegister (.token "r16".toList)),
      rejectsText "set-byte r0 r16" (.invalidOperand (.token "r16".toList) .byte)
    ].all id = true := by decide

/-- Text decode vectors 10 and 41 of 95_test_vectors.md 2.8: leading zeros, and any mix of spaces and tabs. -/
theorem test_text_decode_accepts :
    [
      reads "add-byte r0 0255" 0x110000000000000000FF#80 (.addByteI .r0 255),
      reads "  add-byte \t r0   1  " 0x11000000000000000001#80 (.addByteI .r0 1)
    ].all id = true := by decide

/-- The loader keeps instruction lines only: no comment, no blank line (20_memory.md R66, 30_encoding.md R99). -/
theorem test_loader_strips :
    loadSource ["// head".toList, "stop".toList, " \t ".toList, "".toList, "call 4 // x".toList] =
      [text "stop", text "call 4 // x"] := by decide

/-- The numeric codes of the error latch (60_exceptions.md R261). -/
theorem test_error_codes :
    [none, some (.decode (.unknownOpcode (.field 21))), some (.decode (.wrongArity (.field 0))),
      some (.decode (.invalidRegister (.field 17))), some (.decode (.invalidOperand (.field 17) .byte)),
      some (.execute .divideByZero), some (.execute (.invalidRegisterCast 17)), some (.execute .stackOverflow),
      some (.execute .stackUnderflow), some (.execute (.io []))].map errorCode = [0, 1, 2, 3, 4, 5, 6, 7, 8, 9] := by
  decide

/-! ### Well-formedness -/

/-- An immediate of `MAX_W` is well-formed at its width and the next value is refused (30_encoding.md R96), at every
width below Word, whose field holds no greater value. -/
theorem test_wf_refuses_large_immediates :
    ((Instr.setByteI .r0 255).wf && !(Instr.setByteI .r0 256).wf &&
      (Instr.addQuarterI .r1 65535).wf && !(Instr.addQuarterI .r1 65536).wf &&
      (Instr.compareHalfI .sp 4294967295).wf && !(Instr.compareHalfI .sp 4294967296).wf &&
      (Instr.setWordI .r0 (BitVec.allOnes 64)).wf) = true := by decide

/-! ### Placing and running one word -/

/-- `decodeTableWord` reads the table's numbering: `set-indirect-word r4 r5` of 30_encoding.md R113. -/
theorem test_decode_table_word :
    decodeTableWord 80 0xA6200000000000000005 = some (.setIndirectWord .r4 .r5) := by decide

/-- A word placed at reset is the first instruction run: `set-word r0 18446744073709551615` (Set vector 7). -/
theorem test_with_fetch_word_runs :
    (after (step (State.reset.withFetchWord 80 0x0F00FFFFFFFFFFFFFFFF))).map
      (fun t => (t.reg .r0, t.pc, t.icount, t.err)) = some (0xFFFFFFFFFFFFFFFF#64, 1#64, 1#64, none) := by decide

/-- Output vectors 1, 3 and 4 of 95_test_vectors.md 2.6. -/
theorem test_output_vectors :
    ((after (exec (.printRegister .r3) (start [(.r3, 0x2A)]))).map fun t => (t.events, t.pc, t.err)) =
        some ([.printRegister 3 42], 1, none) ∧
    ((after (exec (.printRegister .r3) { start [(.r3, 0x2A)] with answers := [.ioFault "msg".toList] })).map
        fun t => (t.events, t.pc, t.err)) = some ([.printRegister 3 42], 0, some (.execute (.io "msg".toList))) ∧
    ((after (exec (.printStackI 8) { start [(.sp, 2)] with stk := bytesFrom 0 [1, 2, 3] })).map fun t => t.events) =
        some [.printStack 8 2 { limit := 2, bytes := bytesFrom 0 [1, 2] }] := by decide

/-- Stop vectors 21 and 22 of 95_test_vectors.md 2.5: the report carries the count before the increment. -/
theorem test_stop_report_vectors :
    let s : State := { start [] with pc := 5, icount := 5, config := { Config.default with reportCount := true } }
    ((after (exec .stop s)).map fun t => (t.run, t.pc, t.icount, t.events)) =
        some (.stopped, 6, 6, [.countReport 5]) ∧
    ((after (exec .stop { s with answers := [.ioFault []] })).map fun t => (t.run, t.pc, t.icount, t.err)) =
        some (.stopped, 5, 5, some (.execute (.io []))) := by decide

/-- End-of-input vectors 2 to 4 of 95_test_vectors.md 2.7. -/
theorem test_end_of_input_vectors :
    let c : Config := { Config.default with reportCount := true, prog := [text "stop", text "stop", text "stop"] }
    let s : State := { start [] with config := c, pc := 3, icount := 3 }
    ((after (step s)).map fun t => (t.run, t.pc, t.icount, t.events)) =
        some (.stopped, 3, 3, [.countReport 3]) ∧
    ((after (step { s with pc := 0xFFFFFFFFFFFFFFFF, icount := 0 })).map fun t => (t.run, t.icount, t.events)) =
        some (.stopped, 0, [.countReport 0]) ∧
    ((after (step { State.resetWith { c with prog := [] } with answers := [.ok] })).map fun t => (t.run, t.events)) =
        some (.stopped, [.countReport 0]) := by decide

/-! ### One step of each family (95_test_vectors.md part 2) -/

/-- Vectors of 41_set.md R170: Set; rows
1, 4, 5, 6, 8, 10, 11, 12. -/
theorem test_set_vectors :
    [
      row "set-byte r0 255" 0x090000000000000000FF#80 [(.r0, 0xffffffffffffffff)] (zvs 1 1 1) [(.r0, 0xff)]
        (zvs 1 1 1),
      row "set-quarter r0 r1" 0x0A000000000000000001#80 [(.r0, 0xffffffffffffffff), (.r1, 0x12345678)] (zvs 1 1 1)
        [(.r0, 0x5678), (.r1, 0x12345678)] (zvs 1 1 1),
      row "set-half r0 r1" 0x0C000000000000000001#80 [(.r0, 0xffffffffffffffff), (.r1, 0x1122334455667788)]
        (zvs 1 1 1) [(.r0, 0x55667788), (.r1, 0x1122334455667788)] (zvs 1 1 1),
      row "set-word r0 r1" 0x0E000000000000000001#80 [(.r0, 0), (.r1, 0x1122334455667788)] (zvs 1 1 1)
        [(.r0, 0x1122334455667788), (.r1, 0x1122334455667788)] (zvs 1 1 1),
      row "set-quarter r0 65535" 0x0B00000000000000FFFF#80 [(.r0, 0)] (zvs 1 1 1) [(.r0, 0xffff)] (zvs 1 1 1),
      row "set-byte r0 r0" 0x08000000000000000000#80 [(.r0, 0xabcd)] (zvs 1 1 1) [(.r0, 0xcd)] (zvs 1 1 1),
      row "set-word sp 100" 0x0F800000000000000064#80 [(.sp, 8)] (zvs 1 1 1) [(.sp, 0x64)] (zvs 1 1 1),
      row "set-byte r3 sp" 0x08180000000000000010#80 [(.sp, 0x1ff)] (zvs 1 1 1) [(.r3, 0xff), (.sp, 0x1ff)]
        (zvs 1 1 1)
    ].all id = true := by decide

/-- Vectors of 41_set.md R171: SetIndirect; rows
1, 2, 3, 5, 6, 7, 8, 10. -/
theorem test_set_indirect_vectors :
    [
      row "set-indirect-byte r4 r5" 0xA0200000000000000005#80 [(.r4, 7), (.r5, 0x1ff), (.r7, 0xffffffffffffffff)]
        (zvs 0 0 0) [(.r4, 7), (.r5, 0x1ff), (.r7, 0xff)] (zvs 0 0 0),
      row "set-indirect-quarter r4 r5" 0xA2200000000000000005#80
        [(.r4, 0), (.r5, 0x12345678), (.r0, 0xffffffffffffffff)] (zvs 0 0 0)
        [(.r0, 0x5678), (.r4, 0), (.r5, 0x12345678)] (zvs 0 0 0),
      row "set-indirect-half r4 r5" 0xA4200000000000000005#80 [(.r4, 0xf), (.r5, 0x1122334455667788), (.r15, 1)]
        (zvs 0 0 0) [(.r4, 0xf), (.r5, 0x1122334455667788), (.r15, 0x55667788)] (zvs 0 0 0),
      row "set-indirect-word r4 r5" 0xA6200000000000000005#80 [(.r4, 4), (.r5, 9)] (zvs 0 0 0) [(.r4, 9), (.r5, 9)]
        (zvs 0 0 0),
      row "set-indirect-word r4 r4" 0xA6200000000000000004#80 [(.r4, 5), (.r5, 1)] (zvs 0 0 0) [(.r4, 5), (.r5, 5)]
        (zvs 0 0 0),
      row "set-indirect-word r4 r5" 0xA6200000000000000005#80 [(.r4, 0x11), (.r5, 9)] (zvs 0 0 0)
        [(.r4, 0x11), (.r5, 9)] (zvs 0 0 0) (some (.execute (.invalidRegisterCast 17)) ),
      row "set-indirect-byte r4 r5" 0xA0200000000000000005#80 [(.r4, 0x100000007), (.r5, 9), (.r7, 1)] (zvs 0 0 0)
        [(.r4, 0x100000007), (.r5, 9), (.r7, 1)] (zvs 0 0 0) (some (.execute (.invalidRegisterCast 4294967303)) ),
      row "set-indirect-byte sp r5" 0xA0800000000000000005#80 [(.sp, 3), (.r5, 0x2aa), (.r3, 0)] (zvs 0 0 0)
        [(.r3, 0xaa), (.r5, 0x2aa), (.sp, 3)] (zvs 0 0 0)
    ].all id = true := by decide

/-- Vectors of 42_arithmetic.md R181: Addition; rows
1, 4, 6, 7, 8, 10, 13, 16, 19. -/
theorem test_addition_vectors :
    [
      row "add-byte r0 1" 0x11000000000000000001#80 [(.r0, 0xff)] (zvs 0 0 0) [(.r0, 0)] (zvs 1 1 0),
      row "add-byte r0 100" 0x11000000000000000064#80 [(.r0, 0xc8)] (zvs 0 0 0) [(.r0, 0x2c)] (zvs 0 1 0),
      row "add-byte r0 1" 0x11000000000000000001#80 [(.r0, 0xabcdff)] (zvs 0 0 0) [(.r0, 0)] (zvs 1 1 0),
      row "add-byte r0 r1" 0x10000000000000000001#80 [(.r0, 1), (.r1, 0x1ff)] (zvs 0 0 0) [(.r0, 0), (.r1, 0x1ff)]
        (zvs 1 1 0),
      row "add-byte r0 r0" 0x10000000000000000000#80 [(.r0, 0x80)] (zvs 0 0 0) [(.r0, 0)] (zvs 1 1 0),
      row "add-quarter r0 1" 0x13000000000000000001#80 [(.r0, 0x7fff)] (zvs 0 0 0) [(.r0, 0x8000)] (zvs 0 0 1),
      row "add-half r0 r1" 0x14000000000000000001#80 [(.r0, 0x80000000), (.r1, 0x80000000)] (zvs 0 0 0)
        [(.r0, 0), (.r1, 0x80000000)] (zvs 1 1 0),
      row "add-word r0 r1" 0x16000000000000000001#80 [(.r0, 0x8000000000000000), (.r1, 0x8000000000000000)]
        (zvs 0 0 0) [(.r0, 0), (.r1, 0x8000000000000000)] (zvs 1 1 0),
      row "add-word sp 8" 0x17800000000000000008#80 [(.sp, 0x10)] (zvs 0 0 0) [(.sp, 0x18)] (zvs 0 0 0)
    ].all id = true := by decide

/-- Vectors of 42_arithmetic.md R182: Subtraction; rows
1, 2, 6, 8, 10, 11, 14, 15. -/
theorem test_subtraction_vectors :
    [
      row "sub-byte r0 1" 0x19000000000000000001#80 [(.r0, 0)] (zvs 0 0 0) [(.r0, 0xff)] (zvs 0 1 1),
      row "sub-byte r0 5" 0x19000000000000000005#80 [(.r0, 5)] (zvs 0 1 1) [(.r0, 0)] (zvs 1 0 0),
      row "sub-byte r0 1" 0x19000000000000000001#80 [(.r0, 0x100)] (zvs 0 0 0) [(.r0, 0xff)] (zvs 0 1 1),
      row "sub-quarter r0 5" 0x1B000000000000000005#80 [(.r0, 3)] (zvs 0 0 0) [(.r0, 0xfffe)] (zvs 0 1 1),
      row "sub-half r0 1" 0x1D000000000000000001#80 [(.r0, 0)] (zvs 0 0 0) [(.r0, 0xffffffff)] (zvs 0 1 1),
      row "sub-half r0 r1" 0x1C000000000000000001#80 [(.r0, 0x80000000), (.r1, 0x80000000)] (zvs 0 0 0)
        [(.r0, 0), (.r1, 0x80000000)] (zvs 1 0 0),
      row "sub-word r0 r1" 0x1E000000000000000001#80 [(.r0, 0xa), (.r1, 0xffffffffffffffff)] (zvs 0 0 0)
        [(.r0, 0xb), (.r1, 0xffffffffffffffff)] (zvs 0 1 0),
      row "sub-word sp 8" 0x1F800000000000000008#80 [(.sp, 8)] (zvs 0 0 0) [(.sp, 0)] (zvs 1 0 0)
    ].all id = true := by decide

/-- Vectors of 42_arithmetic.md R183: Multiplication; rows
1, 3, 6, 8, 10, 12, 14. -/
theorem test_multiplication_vectors :
    [
      row "mul-byte r0 16" 0x21000000000000000010#80 [(.r0, 0x10)] (zvs 0 0 0) [(.r0, 0)] (zvs 1 1 0),
      row "mul-byte r0 255" 0x210000000000000000FF#80 [(.r0, 0xff)] (zvs 0 0 0) [(.r0, 1)] (zvs 0 1 0),
      row "mul-byte r0 0" 0x21000000000000000000#80 [(.r0, 0xff)] (zvs 0 1 1) [(.r0, 0)] (zvs 1 0 0),
      row "mul-byte r0 r0" 0x20000000000000000000#80 [(.r0, 0x10)] (zvs 0 0 0) [(.r0, 0)] (zvs 1 1 0),
      row "mul-quarter r0 255" 0x230000000000000000FF#80 [(.r0, 0x101)] (zvs 0 0 0) [(.r0, 0xffff)] (zvs 0 0 1),
      row "mul-half r0 65535" 0x2500000000000000FFFF#80 [(.r0, 0x10001)] (zvs 0 0 0) [(.r0, 0xffffffff)] (zvs 0 0 1),
      row "mul-word r0 r1" 0x26000000000000000001#80 [(.r0, 0xffffffffffffffff), (.r1, 0xffffffffffffffff)]
        (zvs 0 0 0) [(.r0, 1), (.r1, 0xffffffffffffffff)] (zvs 0 1 0)
    ].all id = true := by decide

/-- Vectors of 42_arithmetic.md R184: Division; rows
1, 2, 7, 9, 10, 13, 14, 16. -/
theorem test_division_vectors :
    [
      row "div-byte r0 6" 0x29000000000000000006#80 [(.r0, 0x14)] (zvs 0 0 0) [(.r0, 3)] (zvs 0 0 0),
      row "div-byte r0 1" 0x29000000000000000001#80 [(.r0, 0xff)] (zvs 0 0 0) [(.r0, 0xff)] (zvs 0 0 1),
      row "div-byte r0 0" 0x29000000000000000000#80 [(.r0, 0x14)] (zvs 0 1 1) [(.r0, 0x14)] (zvs 0 1 1)
        (some (.execute .divideByZero)),
      row "div-byte r0 r1" 0x28000000000000000001#80 [(.r0, 0x14), (.r1, 0x100)] (zvs 0 0 0)
        [(.r0, 0x14), (.r1, 0x100)] (zvs 0 0 0) (some (.execute .divideByZero)),
      row "div-quarter r0 r1" 0x2A000000000000000001#80 [(.r0, 0x14), (.r1, 0x100)] (zvs 0 0 0)
        [(.r0, 0), (.r1, 0x100)] (zvs 1 0 0),
      row "div-half r0 65536" 0x2D000000000000010000#80 [(.r0, 0xffffffff)] (zvs 0 0 0) [(.r0, 0xffff)] (zvs 0 0 0),
      row "div-word r0 r1" 0x2E000000000000000001#80 [(.r0, 0xffffffffffffffff), (.r1, 0xffffffffffffffff)]
        (zvs 0 0 0) [(.r0, 1), (.r1, 0xffffffffffffffff)] (zvs 0 0 0),
      row "div-word r0 2" 0x2F000000000000000002#80 [(.r0, 0xffffffffffffffff)] (zvs 0 0 0)
        [(.r0, 0x7fffffffffffffff)] (zvs 0 0 0)
    ].all id = true := by decide

/-- Vectors of 42_arithmetic.md R185: Remainder; rows
1, 5, 8, 9, 10, 11, 12. -/
theorem test_remainder_vectors :
    [
      row "rem-byte r1 6" 0x31080000000000000006#80 [(.r1, 0x14)] (zvs 0 0 0) [(.r1, 2)] (zvs 0 0 0),
      row "rem-byte r0 255" 0x310000000000000000FF#80 [(.r0, 0xfe)] (zvs 0 0 0) [(.r0, 0xfe)] (zvs 0 0 1),
      row "rem-byte r0 0" 0x31000000000000000000#80 [(.r0, 0x14)] (zvs 0 1 1) [(.r0, 0x14)] (zvs 0 1 1)
        (some (.execute .divideByZero)),
      row "rem-byte r0 r1" 0x30000000000000000001#80 [(.r0, 0x14), (.r1, 0x300)] (zvs 0 0 0)
        [(.r0, 0x14), (.r1, 0x300)] (zvs 0 0 0) (some (.execute .divideByZero)),
      row "rem-quarter r0 1000" 0x330000000000000003E8#80 [(.r0, 0xffff)] (zvs 0 0 0) [(.r0, 0x217)] (zvs 0 0 0),
      row "rem-half r0 65536" 0x35000000000000010000#80 [(.r0, 0xffff1234)] (zvs 0 0 0) [(.r0, 0x1234)] (zvs 0 0 0),
      row "rem-word r0 r1" 0x36000000000000000001#80 [(.r0, 0xffffffffffffffff), (.r1, 0x8000000000000000)]
        (zvs 0 0 0) [(.r0, 0x7fffffffffffffff), (.r1, 0x8000000000000000)] (zvs 0 0 0)
    ].all id = true := by decide

/-- Vectors of 43_logic_compare.md R201 to R204: And, Or, Xor, Not; rows
1, 4, 5, 6, 7, 8, 10, 11, 12, 13, 14, 16, 17, 18, 22, 23, 24. -/
theorem test_logic_vectors :
    [
      row "and-byte r0 60" 0x5900000000000000003C#80 [(.r0, 0xf0)] (zvs 0 1 0) [(.r0, 0x30)] (zvs 0 0 0),
      row "and-byte r0 r0" 0x58000000000000000000#80 [(.r0, 0xabcd)] (zvs 0 1 0) [(.r0, 0xcd)] (zvs 0 0 1),
      row "and-quarter r0 r1" 0x5A000000000000000001#80 [(.r0, 0xffffffff), (.r1, 0xff00ff00)] (zvs 0 1 0)
        [(.r0, 0xff00), (.r1, 0xff00ff00)] (zvs 0 0 1),
      row "and-half r0 4294967295" 0x5D0000000000FFFFFFFF#80 [(.r0, 0x1122334455667788)] (zvs 0 1 0)
        [(.r0, 0x55667788)] (zvs 0 0 0),
      row "and-word r0 r1" 0x5E000000000000000001#80 [(.r0, 0xffffffffffffffff), (.r1, 0x8000000000000000)]
        (zvs 0 1 0) [(.r0, 0x8000000000000000), (.r1, 0x8000000000000000)] (zvs 0 0 1),
      row "or-byte r0 128" 0x61000000000000000080#80 [(.r0, 0xf)] (zvs 0 1 0) [(.r0, 0x8f)] (zvs 0 0 1),
      row "or-quarter r0 65280" 0x6300000000000000FF00#80 [(.r0, 0xff)] (zvs 0 1 0) [(.r0, 0xffff)] (zvs 0 0 1),
      row "or-half r0 r1" 0x64000000000000000001#80 [(.r0, 1), (.r1, 0xffffffff80000000)] (zvs 0 1 0)
        [(.r0, 0x80000001), (.r1, 0xffffffff80000000)] (zvs 0 0 1),
      row "or-word r0 r1" 0x66000000000000000001#80 [(.r0, 0), (.r1, 0)] (zvs 0 1 0) [(.r0, 0), (.r1, 0)]
        (zvs 1 0 0),
      row "xor-byte r0 255" 0x690000000000000000FF#80 [(.r0, 0xaa)] (zvs 0 1 0) [(.r0, 0x55)] (zvs 0 0 0),
      row "xor-word r0 r0" 0x6E000000000000000000#80 [(.r0, 0x1122334455667788)] (zvs 0 1 0) [(.r0, 0)] (zvs 1 0 0),
      row "xor-half r0 252645135" 0x6D00000000000F0F0F0F#80 [(.r0, 0xffffffff)] (zvs 0 1 0) [(.r0, 0xf0f0f0f0)]
        (zvs 0 0 1),
      row "xor-quarter r0 32768" 0x6B000000000000008000#80 [(.r0, 0)] (zvs 0 1 0) [(.r0, 0x8000)] (zvs 0 0 1),
      row "not-byte r0" 0x70000000000000000000#80 [(.r0, 0xf)] (zvs 0 1 0) [(.r0, 0xf0)] (zvs 0 0 1),
      row "not-quarter r0" 0x72000000000000000000#80 [(.r0, 0xff)] (zvs 0 1 0) [(.r0, 0xff00)] (zvs 0 0 1),
      row "not-half r0" 0x74000000000000000000#80 [(.r0, 0x80000000)] (zvs 0 1 0) [(.r0, 0x7fffffff)] (zvs 0 0 0),
      row "not-word r0" 0x76000000000000000000#80 [(.r0, 0)] (zvs 0 1 0) [(.r0, 0xffffffffffffffff)] (zvs 0 0 1)
    ].all id = true := by decide

/-- Vectors of 43_logic_compare.md R205, R206: Test, Compare; rows
1, 4, 5, 6, 7, 8, 10, 13, 14, 15, 16. -/
theorem test_test_compare_vectors :
    [
      row "test-byte r0 15" 0x7900000000000000000F#80 [(.r0, 0x1f0)] (zvs 0 0 0) [(.r0, 0x1f0)] (zvs 1 0 0),
      row "test-quarter r0 r0" 0x7A000000000000000000#80 [(.r0, 0x100)] (zvs 0 0 0) [(.r0, 0x100)] (zvs 0 0 0),
      row "test-word r0 r1" 0x7E000000000000000001#80 [(.r0, 0xffffffffffffffff), (.r1, 0x8000000000000000)]
        (zvs 0 0 0) [(.r0, 0xffffffffffffffff), (.r1, 0x8000000000000000)] (zvs 0 0 1),
      row "test-half r0 0" 0x7D000000000000000000#80 [(.r0, 0xffffffffffffffff)] (zvs 0 1 1)
        [(.r0, 0xffffffffffffffff)] (zvs 1 0 0),
      row "compare-byte r0 5" 0x81000000000000000005#80 [(.r0, 5)] (zvs 0 1 1) [(.r0, 5)] (zvs 1 0 0),
      row "compare-byte r0 10" 0x8100000000000000000A#80 [(.r0, 5)] (zvs 0 0 0) [(.r0, 5)] (zvs 0 1 1),
      row "compare-byte r0 10" 0x8100000000000000000A#80 [(.r0, 0xc8)] (zvs 0 0 0) [(.r0, 0xc8)] (zvs 0 0 1),
      row "compare-quarter r0 0" 0x83000000000000000000#80 [(.r0, 0x100)] (zvs 0 0 0) [(.r0, 0x100)] (zvs 0 0 0),
      row "compare-half r0 r1" 0x84000000000000000001#80 [(.r0, 1), (.r1, 2)] (zvs 0 0 0) [(.r0, 1), (.r1, 2)]
        (zvs 0 1 1),
      row "compare-word r0 r1" 0x86000000000000000001#80 [(.r0, 0), (.r1, 0xffffffffffffffff)] (zvs 0 0 0)
        [(.r0, 0), (.r1, 0xffffffffffffffff)] (zvs 0 1 0),
      row "compare-word r0 r1" 0x86000000000000000001#80 [(.r0, 0xffffffffffffffff), (.r1, 0)] (zvs 0 0 0)
        [(.r0, 0xffffffffffffffff), (.r1, 0)] (zvs 0 0 1)
    ].all id = true := by decide

/-- Vectors of 45_stack.md R240: Push; rows
1, 2, 3, 4, 6, 7, 8, 12. -/
theorem test_push_vectors :
    [
      flow "push-byte r0" 0x38000000000000000000#80 [(.r0, 0x1ff), (.sp, 0)] 0 0 { cells := [] }
        [(.r0, 0x1ff), (.sp, 1)] 1 1 (bytesFrom 0 [0xFF]),
      flow "push-quarter r0" 0x3A000000000000000000#80 [(.r0, 0x1122334455667788), (.sp, 0)] 0 0 { cells := [] }
        [(.r0, 0x1122334455667788), (.sp, 2)] 1 1 (bytesFrom 0 [0x88, 0x77]),
      flow "push-half r0" 0x3C000000000000000000#80 [(.r0, 0x1122334455667788), (.sp, 0)] 0 0 { cells := [] }
        [(.r0, 0x1122334455667788), (.sp, 4)] 1 1 (bytesFrom 0 [0x88, 0x77, 0x66, 0x55]),
      flow "push-word r0" 0x3E000000000000000000#80 [(.r0, 0x1122334455667788), (.sp, 0)] 0 0 { cells := [] }
        [(.r0, 0x1122334455667788), (.sp, 8)] 1 1 (bytesFrom 0 [0x88, 0x77, 0x66, 0x55, 0x44, 0x33, 0x22, 0x11]),
      flow "push-word sp" 0x3E800000000000000000#80 [(.sp, 8)] 0 0 { cells := [] } [(.sp, 0x10)] 1 1
        (bytesFrom 8 [0x08, 0x00, 0x00, 0x00, 0x00, 0x00, 0x00, 0x00]),
      flow "push-byte r0" 0x38000000000000000000#80 [(.r0, 0x5a), (.sp, 0x3fffff)] 0 0 { cells := [] }
        [(.r0, 0x5a), (.sp, 0x400000)] 1 1 (bytesFrom 4194303 [0x5A]),
      flow "push-byte r0" 0x38000000000000000000#80 [(.r0, 0x5a), (.sp, 0x400000)] 0 0 { cells := [] }
        [(.r0, 0x5a), (.sp, 0x400000)] 0 0 { cells := [] } (some (.execute .stackOverflow)),
      flow "push-byte r0" 0x38000000000000000000#80 [(.r0, 1), (.sp, 0xffffffffffffffff)] 0 0 { cells := [] }
        [(.r0, 1), (.sp, 0xffffffffffffffff)] 0 0 { cells := [] } (some (.execute .stackOverflow))
    ].all id = true := by decide

/-- Vectors of 45_stack.md R241: Pop; rows
1, 2, 3, 6, 9, 11, 12, 13. -/
theorem test_pop_vectors :
    [
      flow "pop-byte r1" 0x40080000000000000000#80 [(.r1, 0xffffffffffffffff), (.sp, 8)] 0 0
        (bytesFrom 0 [0x88, 0x77, 0x66, 0x55, 0x44, 0x33, 0x22, 0x11]) [(.r1, 0x11), (.sp, 7)] 1 1
        (bytesFrom 0 [0x88, 0x77, 0x66, 0x55, 0x44, 0x33, 0x22, 0x11]),
      flow "pop-quarter r1" 0x42080000000000000000#80 [(.r1, 0xffffffffffffffff), (.sp, 8)] 0 0
        (bytesFrom 0 [0x88, 0x77, 0x66, 0x55, 0x44, 0x33, 0x22, 0x11]) [(.r1, 0x1122), (.sp, 6)] 1 1
        (bytesFrom 0 [0x88, 0x77, 0x66, 0x55, 0x44, 0x33, 0x22, 0x11]),
      flow "pop-half r1" 0x44080000000000000000#80 [(.r1, 0xffffffffffffffff), (.sp, 8)] 0 0
        (bytesFrom 0 [0x88, 0x77, 0x66, 0x55, 0x44, 0x33, 0x22, 0x11]) [(.r1, 0x11223344), (.sp, 4)] 1 1
        (bytesFrom 0 [0x88, 0x77, 0x66, 0x55, 0x44, 0x33, 0x22, 0x11]),
      flow "pop-quarter r1" 0x42080000000000000000#80 [(.r1, 0), (.sp, 3)] 0 0
        (bytesFrom 0 [0x88, 0x77, 0x66, 0x55, 0x44, 0x33, 0x22, 0x11]) [(.r1, 0x6677), (.sp, 1)] 1 1
        (bytesFrom 0 [0x88, 0x77, 0x66, 0x55, 0x44, 0x33, 0x22, 0x11]),
      flow "pop-word r1" 0x46080000000000000000#80 [(.r1, 9), (.sp, 7)] 0 0
        (bytesFrom 0 [0x88, 0x77, 0x66, 0x55, 0x44, 0x33, 0x22, 0x11]) [(.r1, 9), (.sp, 7)] 0 0
        (bytesFrom 0 [0x88, 0x77, 0x66, 0x55, 0x44, 0x33, 0x22, 0x11]) (some (.execute .stackUnderflow)),
      flow "pop-byte r1" 0x40080000000000000000#80 [(.r1, 9), (.sp, 0x400001)] 0 0
        (bytesFrom 0 [0x88, 0x77, 0x66, 0x55, 0x44, 0x33, 0x22, 0x11]) [(.r1, 9), (.sp, 0x400001)] 0 0
        (bytesFrom 0 [0x88, 0x77, 0x66, 0x55, 0x44, 0x33, 0x22, 0x11]) (some (.execute .stackOverflow)),
      flow "pop-byte r1" 0x40080000000000000000#80 [(.r1, 9), (.sp, 0x400000)] 0 0 (bytesFrom 4194303 [0xA5])
        [(.r1, 0xa5), (.sp, 0x3fffff)] 1 1 (bytesFrom 4194303 [0xA5]),
      flow "pop-word sp" 0x46800000000000000000#80 [(.sp, 8)] 0 0
        (bytesFrom 0 [0x88, 0x77, 0x66, 0x55, 0x44, 0x33, 0x22, 0x11]) [(.sp, 0x1122334455667788)] 1 1
        (bytesFrom 0 [0x88, 0x77, 0x66, 0x55, 0x44, 0x33, 0x22, 0x11])
    ].all id = true := by decide

/-- Vectors of 44_control_transfer.md R220 to R223: Jump, Call, Return, Stop; rows
1, 6, 8, 9, 11, 14, 15, 18, 19, 20. -/
theorem test_control_vectors :
    [
      flow "jump 7" 0x89000000000000000007#80 [(.sp, 0)] 3 10 { cells := [] } [(.sp, 0)] 7 11 { cells := [] },
      flow "jump sp" 0x88000000000000000010#80 [(.sp, 0x18)] 3 0 { cells := [] } [(.sp, 0x18)] 24 1 { cells := [] },
      flow "call r2" 0x48000000000000000002#80 [(.r2, 0x32), (.sp, 8)] 72623859790382856 0 { cells := [] }
        [(.r2, 0x32), (.sp, 0x10)] 50 1 (bytesFrom 8 [0x08, 0x07, 0x06, 0x05, 0x04, 0x03, 0x02, 0x01]),
      flow "call sp" 0x48000000000000000010#80 [(.sp, 0x10)] 5 0 { cells := [] } [(.sp, 0x18)] 16 1
        (bytesFrom 16 [0x05, 0x00, 0x00, 0x00, 0x00, 0x00, 0x00, 0x00]),
      flow "call 4" 0x49000000000000000004#80 [(.sp, 0x3ffff9)] 1 0 { cells := [] } [(.sp, 0x3ffff9)] 1 0
        { cells := [] } (some (.execute .stackOverflow)),
      flow "return" 0x50000000000000000000#80 [(.sp, 8)] 5 3
        (bytesFrom 0 [0x01, 0x00, 0x00, 0x00, 0x00, 0x00, 0x00, 0x00]) [(.sp, 0)] 2 4
        (bytesFrom 0 [0x01, 0x00, 0x00, 0x00, 0x00, 0x00, 0x00, 0x00]),
      flow "return" 0x50000000000000000000#80 [(.sp, 8)] 5 0
        (bytesFrom 0 [0xFF, 0xFF, 0xFF, 0xFF, 0xFF, 0xFF, 0xFF, 0xFF]) [(.sp, 0)] 0 1
        (bytesFrom 0 [0xFF, 0xFF, 0xFF, 0xFF, 0xFF, 0xFF, 0xFF, 0xFF]),
      flow "return" 0x50000000000000000000#80 [(.sp, 7)] 5 0 { cells := [] } [(.sp, 7)] 5 0 { cells := [] }
        (some (.execute .stackUnderflow)),
      flow "return" 0x50000000000000000000#80 [(.sp, 0x400008)] 5 0 { cells := [] } [(.sp, 0x400008)] 5 0
        { cells := [] } (some (.execute .stackOverflow)),
      flow "stop" 0x00000000000000000000#80 [(.sp, 0)] 5 5 { cells := [] } [(.sp, 0)] 6 6 { cells := [] }
    ].all id = true := by decide

/-! ### Witnesses: each meets all the hypotheses of one obligation together, clause by clause at a boundary -/

/-- A running state whose program is one line, delivered as text. -/
def withLine (line : String) (s : State) : State := { s with config := { s.config with prog := [text line] } }

/-- A state whose next emission faults. -/
def faulty : State := { State.reset with answers := [.ioFault "full".toList] }

theorem test_witness_decode_of_encode :
    (Instr.addByteI .sp 255).wf = true ∧ (Instr.callI 0xFFFFFFFFFFFFFFFF).wf = true := by decide

theorem test_witness_accepted_word : decodeWord 0x118000000000000000FF#80 = .ok (.addByteI .sp 255) := by decide

theorem test_witness_unassigned_opcode :
    20 < (0xA8000000000000000000 : InstrWord).toNat / 2 ^ 75 ∧
      20 < (0xFFFFFFFFFFFFFFFFFFFF : InstrWord).toNat / 2 ^ 75 := by decide

/-- Each clause of the register-field rule, the fields at 16, 17 and 31: `rd` with the lowest and the highest operation,
set-indirect's second register, and a register operand in shape RO and in shape O. -/
theorem test_witness_register_field :
    let set17 : InstrWord := 0x08880000000000000000#80
    let indirect31 : InstrWord := 0xA6F80000000000000025#80
    let second17 : InstrWord := 0xA6800000000000000011#80
    let operand31 : InstrWord := 0x1280000000000000003F#80
    let target17 : InstrWord := 0x98000000000000000011#80
    (set17.toNat / 2 ^ 75 = 1 ∧ 1 ∉ [0, 9, 10, 17, 19] ∧ set17.toNat / 2 ^ 67 % 32 = 17) ∧
    (indirect31.toNat / 2 ^ 75 = 20 ∧ 20 ∉ [0, 9, 10, 17, 19] ∧ indirect31.toNat / 2 ^ 67 % 32 = 31) ∧
    (second17.toNat / 2 ^ 75 = 20 ∧ second17.toNat / 2 ^ 67 % 32 = 16 ∧ second17.toNat % 32 = 17) ∧
    (operand31.toNat / 2 ^ 75 = 2 ∧ operand31.toNat / 2 ^ 72 % 2 = 0 ∧ operand31.toNat / 2 ^ 67 % 32 = 16 ∧
      operand31.toNat % 32 = 31) ∧
    (target17.toNat / 2 ^ 75 = 19 ∧ target17.toNat / 2 ^ 72 % 2 = 0 ∧ target17.toNat % 32 = 17) := by decide

theorem test_witness_immediate_above_max :
    let word : InstrWord := 0x83800000000000010000#80
    word.toNat / 2 ^ 75 = 16 ∧ word.toNat / 2 ^ 72 % 2 = 1 ∧ word.toNat / 2 ^ 67 % 32 = 16 ∧
      Width.ofCode (BitVec.ofNat 2 (word.toNat / 2 ^ 73 % 4)) = .quarter ∧
      Width.quarter.maxVal < word.toNat % 2 ^ 64 := by decide

theorem test_witness_assembled_word :
    assemble (tokenize "add-byte r0 255".toList) = .ok 0x110000000000000000FF#80 := by decide

theorem test_witness_line_and_word : (Instr.setWordI .r0 0xFFFFFFFFFFFFFFFF).wf = true ∧
    decodeWord 0x0F00FFFFFFFFFFFFFFFF#80 = .ok (.setWordI .r0 0xFFFFFFFFFFFFFFFF) := by decide

/-- Accepted lines without operand and with a literal that has a leading zero, and what follows them. -/
theorem test_witness_surplus_tokens :
    (decodeText ["return".toList] = .ok .ret ∧ ["r0".toList] ≠ []) ∧
    (decodeText ["add-byte".toList, "r0".toList, "01".toList] = .ok (.addByteI .r0 1) ∧ ["2".toList] ≠ []) := by decide

/-- An accepted line cut to no operand and to one. -/
theorem test_witness_missing_tokens :
    decodeText ["add-byte".toList, "r0".toList, "01".toList] = .ok (.addByteI .r0 1) ∧
      0 < ["r0".toList, "01".toList].length ∧ 1 < ["r0".toList, "01".toList].length := by decide

theorem test_witness_tokens :
    "r0".toList ≠ [] ∧ (∀ c ∈ "r0".toList, isSeparator c = false) ∧ isSeparator ' ' = true ∧
      isSeparator '\t' = true := by
  refine ⟨by decide, fun c h => ?_, by decide, by decide⟩
  have h : c ∈ ['r', '0'] := h
  simp only [List.mem_cons, List.not_mem_nil, or_false] at h
  rcases h with rfl | rfl <;> decide

theorem test_witness_step_runs_decoded :
    let s := withLine "set-byte r0 255" State.reset
    s.run = .running ∧ s.config.prog[s.pc.toNat]? = some (text "set-byte r0 255") ∧
      decodeLine (text "set-byte r0 255") = .ok (.setByteI .r0 255) := by decide

theorem test_witness_decode_failure :
    let s := withLine "nop" State.reset
    s.run = .running ∧ s.config.prog[s.pc.toNat]? = some (text "nop") ∧
      decodeLine (text "nop") = .error (.unknownOpcode (.token "nop".toList)) := by decide

theorem test_witness_end_of_input :
    let s := { withLine "stop" State.reset with pc := 1 }
    let r : State := { s with config := { s.config with reportCount := true } }
    (s.run = .running ∧ s.config.prog.length ≤ s.pc.toNat ∧ s.config.reportCount = false) ∧
    (r.config.reportCount = true ∧ { r with answers := [.ok] }.nextAnswer = .ok) ∧
    { r with answers := [.ioFault []] }.nextAnswer = .ioFault [] := by decide

theorem test_witness_stopped : State.reset.halt.run = .stopped := by decide

/-- A running state inside the invariant with bytes on the stack, one step of which succeeds. -/
def pushing : State := withLine "push-word r0" { start [(.r0, 7), (.sp, 8)] with stk := bytesFrom 0 [1, 2, 3] }

theorem test_witness_inv_step : pushing.Inv ∧ ∃ t, step pushing = .next t := ⟨by decide, _, rfl⟩

theorem test_witness_reset_inv : Config.default.wf ∧
    { Config.default with stackCap := 18446744073709551615 }.wf :=
  ⟨by decide, by decide, by norm_num⟩

theorem test_witness_run : ∃ t, Host.Core.run Sys2Proof.core 2 pushing = .next t := ⟨_, rfl⟩

theorem test_witness_events : ∃ t, step (withLine "print-register r3" (start [])) = .next t := ⟨_, rfl⟩

theorem test_witness_error_latch :
    let s := State.reset.abort (.execute .divideByZero)
    s.Inv ∧ s.err = some (.execute .divideByZero) ∧ ∃ t, Host.Core.run Sys2Proof.core 3 s = .next t :=
  ⟨by decide, by decide, _, rfl⟩

theorem test_witness_failed_instruction :
    (State.reset.err = none ∧ ∃ t, exec (.divByteI .r0 0) State.reset = .next t ∧ t.err ≠ none) ∧
    (faulty.err = none ∧ ∃ t, exec (.printRegister .sp) faulty = .next t ∧ t.err ≠ none) :=
  ⟨⟨by decide, _, rfl, by decide⟩, by decide, _, rfl, by decide⟩

/-- The clauses of the `icount` rule: a step that executes, one that does not, and a report, answered ok and answered with
a fault. -/
theorem test_witness_icount :
    (pushing.Inv ∧ pushing.run = .running ∧ pushing.fetch = some (text "push-word r0") ∧
      decodeLine (text "push-word r0") = .ok (.pushWord .r0) ∧ ∃ t, step pushing = .next t ∧ t.err = none) ∧
    (State.reset.Inv ∧ State.reset.fetch = none ∧ ∃ t, step State.reset = .next t) ∧
    (∃ t, exec .stop { start [] with config := { Config.default with reportCount := true } } = .next t ∧ t.err = none) ∧
    (∃ t, exec .stop { faulty with config := { Config.default with reportCount := true } } = .next t ∧ t.err ≠ none) :=
  ⟨⟨by decide, by decide, by decide, by decide, _, rfl, by decide⟩, ⟨by decide, by decide, _, rfl⟩,
    ⟨_, rfl, by decide⟩, _, rfl, by decide⟩

/-- Each clause of the `pc` rule: success of each kind, a failure, end of input and a decode failure. -/
theorem test_witness_pc :
    let c := start [(.sp, 8)]
    (c.err = none ∧ State.reset.err = none) ∧
    (∃ t, exec (.addByteI .r0 1) c = .next t ∧ t.err = none) ∧ (∃ t, exec (.jumpR .sp) c = .next t ∧ t.err = none) ∧
    (∃ t, exec (.callI 0xFFFFFFFFFFFFFFFF) c = .next t ∧ t.err = none) ∧ (∃ t, exec .ret c = .next t ∧ t.err = none) ∧
    (∃ t, exec .ret State.reset = .next t ∧ t.err ≠ none) ∧
    (State.reset.fetch = none ∧ ∃ t, step State.reset = .next t) ∧
    ((withLine "nop" c).fetch = some (text "nop") ∧
      decodeLine (text "nop") = .error (.unknownOpcode (.token "nop".toList)) ∧
      ∃ t, step (withLine "nop" c) = .next t) :=
  ⟨⟨by decide, by decide⟩, ⟨_, rfl, by decide⟩, ⟨_, rfl, by decide⟩, ⟨_, rfl, by decide⟩, ⟨_, rfl, by decide⟩,
    ⟨_, rfl, by decide⟩, ⟨by decide, _, rfl⟩, by decide, by decide, _, rfl⟩

theorem test_witness_flags :
    (∃ t, exec (.setByteI .r0 1) State.reset = .next t) ∧ (Instr.setByteI .r0 1).toForm.opcode.writesFlags = false ∧
    (∃ t, exec (.remByteI .r0 0) State.reset = .next t ∧ t.err ≠ none) ∧
    (∃ t, exec (.notWord .r0) State.reset = .next t ∧ t.err = none) ∧
    (Instr.notWord .r0).toForm.opcode.writesFlags = true :=
  ⟨⟨_, rfl⟩, by decide, ⟨_, rfl, by decide⟩, ⟨_, rfl, by decide⟩, by decide⟩

theorem test_witness_register_frame :
    (∃ t, exec (.popWord .r1) (start [(.sp, 8)]) = .next t) ∧
    (Instr.popWord .r1).toForm.mayWrite (start [(.sp, 8)]) .r0 = false ∧
    (∃ t, exec (.setIndirectWord .r4 .r5) (start [(.r4, 16)]) = .next t) ∧
    (Instr.setIndirectWord .r4 .r5).toForm.mayWrite (start [(.r4, 16)]) .r15 = false :=
  ⟨⟨_, rfl⟩, by decide, ⟨_, rfl⟩, by decide⟩

/-- The offsets just below and just above the bytes a word push stores. -/
theorem test_witness_stack_frame :
    (∃ t, exec (.pushWord .r0) pushing = .next t) ∧
    ¬(pushing.spNat ≤ 7 ∧ 7 < pushing.spNat + (Instr.pushWord .r0).toForm.storeBytes) ∧
    ¬(pushing.spNat ≤ 16 ∧ 16 < pushing.spNat + (Instr.pushWord .r0).toForm.storeBytes) :=
  ⟨⟨_, rfl⟩, by decide, by decide⟩

theorem test_witness_noninterference :
    (∃ t, Host.Core.run Sys2Proof.core 1 pushing = .next t) ∧ (∃ t, exec (.printRegister .r0) faulty = .next t) ∧
    ∃ t, exec .stop { start [] with config := { Config.default with reportCount := true } } = .next t :=
  ⟨⟨_, rfl⟩, ⟨_, rfl⟩, _, rfl⟩

theorem test_witness_narrowing_and_widening : 7 < Width.word.bytes ∧ 0 < Width.byte.bytes ∧ Reg.sp ≠ Reg.r0 := by decide

/-- The last byte and the last word of the buffer. -/
theorem test_witness_mem : 4194303 + 1 ≤ State.reset.config.stackCap ∧ 4194296 + 8 ≤ State.reset.config.stackCap ∧
    0 < 1 ∧ 7 < 8 ∧ 4194295 < 4194296 := by decide

theorem test_witness_operands :
    (Operand.imm 255).wf .byte = true ∧ (Operand.imm 0xFFFFFFFFFFFFFFFF).wf .word = true ∧
    (Operand.reg .sp).wf .half = true := by decide

theorem test_witness_set_indirect :
    ((start [(.r4, 16)]).reg .r4).toNat = Reg.sp.index.val ∧ ((start []).reg .r4).toNat = Reg.r0.index.val ∧
    16 < ((start [(.r4, 17)]).reg .r4).toNat ∧ 16 < ((start [(.r4, 0x100000007)]).reg .r4).toNat := by decide

/-- Divisors 1 and 255 at byte width, and a literal and a register that are zero at that width. -/
theorem test_witness_divisors :
    ((Operand.imm 1).wf .byte = true ∧ State.reset.operandValue (.imm 1) .byte ≠ 0) ∧
    ((Operand.imm 255).wf .byte = true ∧ State.reset.operandValue (.imm 255) .byte ≠ 0) ∧
    ((Operand.imm 0).wf .byte = true ∧ State.reset.operandValue (.imm 0) .byte = 0) ∧
    ((Operand.reg .r1).wf .byte = true ∧ (start [(.r1, 256)]).operandValue (.reg .r1) .byte = 0) := by decide

theorem test_witness_add_sub :
    (Operand.imm 255).wf .byte = true ∧ Operand.imm 255 ≠ .reg .r0 ∧
      ∃ t, exec (.binary .add .byte .r0 (.imm 255)) (start [(.r0, 1)]) = .next t ∧
        ∃ u, exec (.binary .sub .byte .r0 (.imm 255)) t = .next u := ⟨by decide, by decide, _, rfl, _, rfl⟩

/-- A call and a word push into the last 8 bytes of the buffer; a return and a word pop of the first and last 8. -/
theorem test_witness_stack_room :
    ((start [(.sp, 4194296)]).spNat + 8 ≤ State.reset.config.stackCap) ∧
    (8 ≤ (start [(.sp, 8)]).spNat ∧ (start [(.sp, 8)]).spNat ≤ State.reset.config.stackCap) ∧
    (8 ≤ (start [(.sp, 4194304)]).spNat ∧ (start [(.sp, 4194304)]).spNat ≤ State.reset.config.stackCap) := by decide

theorem test_witness_stop_and_output :
    let r : State := { faulty with config := { faulty.config with reportCount := true } }
    faulty.config.reportCount = false ∧ r.config.reportCount = true ∧ r.nextAnswer = .ioFault "full".toList ∧
    { r with answers := [.ok] }.nextAnswer = .ok := by decide

/-- The later state of the rule is here the one the call leaves. -/
theorem test_witness_call_return :
    let s := start [(.sp, 4194296)]
    s.config.wf ∧ s.spNat + 8 ≤ s.config.stackCap ∧
      ∃ t u, exec (.target .call (.imm 4)) s = .next t ∧ u = t ∧ u.config = s.config ∧ u.reg .sp = t.reg .sp ∧
        ∀ a, s.spNat ≤ a → a < s.spNat + 8 → u.stk.read a = t.stk.read a :=
  ⟨by decide, by decide, _, _, rfl, rfl, rfl, rfl, fun _ _ _ => rfl⟩

/-- One pointer for each clause of the bounds rule: one byte too many, above the capacity, one byte too few. -/
theorem test_witness_stack_bounds :
    State.reset.config.stackCap < (start [(.sp, 4194297)]).spNat + Width.word.bytes ∧
    State.reset.config.stackCap < (start [(.sp, 4194304)]).spNat + Width.byte.bytes ∧
    State.reset.config.stackCap < (start [(.sp, 4194305)]).spNat ∧
    ((start [(.sp, 7)]).spNat ≤ State.reset.config.stackCap ∧ (start [(.sp, 7)]).spNat < Width.word.bytes) ∧
    ((start []).spNat ≤ State.reset.config.stackCap ∧ (start []).spNat < Width.byte.bytes) := by decide

theorem test_witness_push_pop :
    (start [(.r0, 5), (.sp, 4194303)]).config.wf ∧
    (start [(.r0, 5), (.sp, 4194303)]).spNat + Width.byte.bytes ≤ State.reset.config.stackCap ∧
      ∃ t, exec (.unary .push .byte .r0) (start [(.r0, 5), (.sp, 4194303)]) = .next t ∧
        ∃ u, exec (.unary .pop .byte .r1) t = .next u := ⟨by decide, by decide, _, rfl, _, rfl⟩

/-- Each of the four instructions of the pointer rule, the pointer at the capacity or at 0. -/
theorem test_witness_stack_pointer :
    let s := start [(.sp, 4194304)]
    s.config.wf ∧ s.spNat ≤ s.config.stackCap ∧ (start []).spNat ≤ (start []).config.stackCap ∧ Reg.r1 ≠ Reg.sp ∧
      (∃ t, exec (.unary .push .word .sp) s = .next t) ∧ (∃ t, exec (.unary .pop .word .r1) s = .next t) ∧
      (∃ t, exec (.target .call (.reg .sp)) (start []) = .next t) ∧ ∃ t, exec .ret s = .next t :=
  ⟨by decide, by decide, by decide, by decide, ⟨_, rfl⟩, ⟨_, rfl⟩, ⟨_, rfl⟩, _, rfl⟩

/-- The bytes a view shows, and does not, at the pointer and at the capacity. -/
theorem test_witness_print_stack :
    (1 < (start [(.sp, 2)]).spNat ∧ 1 < State.reset.config.stackCap) ∧ ¬2 < (start [(.sp, 2)]).spNat ∧
    ¬4194304 < State.reset.config.stackCap ∧ (start []).nextAnswer = .ok ∧
    faulty.nextAnswer = .ioFault "full".toList := by decide

end Sys2Proof.Tests
end

namespace Sys2Proof.Machine
/-! ### State family: steps and runs

`step` said forwards, once per case of the cycle (40_engine_cycle.md R141), and the induction over the steps of a run,
packaged once. -/

theorem step_of_stopped {s : State} (hrun : s.run = .stopped) : step s = .next s := by
  simp [step, hrun]

theorem step_of_endOfInput {s : State} (hrun : s.run = .running) (hfetch : s.fetch = none) :
    step s = .next s.implicitStop := by
  simp [step, hrun, hfetch]

theorem step_of_decodeError {s : State} {line : Line} {e : DecodeError} (hrun : s.run = .running)
    (hfetch : s.fetch = some line) (hdec : decodeLine line = .error e) : step s = .next (s.abort (.decode e)) := by
  simp [step, hrun, hfetch, hdec]

theorem step_of_decoded {s : State} {line : Line} {i : Instr} (hrun : s.run = .running)
    (hfetch : s.fetch = some line) (hdec : decodeLine line = .ok i) : step s = exec i s := by
  simp [step, hrun, hfetch, hdec]

theorem implicitStop_pc (s : State) : s.implicitStop.pc = s.pc := by
  rcases implicitStop_cases s with h | h | ⟨m, h⟩ <;> rw [h] <;> rfl

theorem implicitStop_icount (s : State) : s.implicitStop.icount = s.icount := by
  rcases implicitStop_cases s with h | h | ⟨m, h⟩ <;> rw [h] <;> rfl

/-- A run of `k + 1` steps is a step that answers a state, and a run of `k` steps from there. -/
theorem run_succ_eq_next {M : Host.Core} {k : Nat} {s t : M.State} :
    M.run (k + 1) s = .next t ↔ ∃ u, M.step s = .next u ∧ M.run k u = .next t := by
  rw [Host.Core.run]
  cases M.step s <;> simp

/-- What every step keeps, every run keeps. -/
theorem run_preserves {M : Host.Core} {P : M.State → Prop} (hstep : ∀ s t, P s → M.step s = .next t → P t) {k : Nat}
    {s t : M.State} (hs : P s) (hrun : M.run k s = .next t) : P t := by
  induction k generalizing s with
  | zero =>
    cases hrun
    exact hs
  | succ k ih =>
    obtain ⟨u, hu, hrest⟩ := run_succ_eq_next.1 hrun
    exact ih (hstep s u hs hu) hrest

end Sys2Proof.Machine

namespace Sys2Proof.Machine
/-! ### State family: the invariant and the error latch (10_state.md R33, R38) -/

/-- In a state of the invariant a running engine has no error latched. -/
theorem inv_err_none {s : State} (hs : s.Inv) (hrun : s.run = .running) : s.err = none := by
  obtain ⟨-, -, hlatch, -⟩ := hs
  exact hlatch hrun

/-- A state with the buffer and the parameters of a state of the invariant meets it too, if it latches no error while
it runs. -/
theorem inv_of_same_buffer {s t : State} (hs : s.Inv) (hstk : t.stk = s.stk) (hconfig : t.config = s.config)
    (hlatch : t.run = .running → t.err = none) : t.Inv := by
  obtain ⟨hwf, hinside, -, hbounds⟩ := hs
  simp only [State.Inv, hstk, hconfig]
  exact ⟨hwf, hinside, hlatch, hbounds⟩

theorem abort_inv {s : State} (hs : s.Inv) (e : Error) : (s.abort e).Inv :=
  inv_of_same_buffer hs rfl rfl nofun

theorem record_inv {s : State} (hs : s.Inv) (ev : Event) : (s.record ev).Inv :=
  inv_of_same_buffer hs rfl rfl (inv_err_none hs)

theorem halt_inv {s : State} (hs : s.Inv) : s.halt.Inv :=
  inv_of_same_buffer hs rfl rfl nofun

theorem implicitStop_inv {s : State} (hs : s.Inv) : s.implicitStop.Inv := by
  rcases implicitStop_cases s with h | h | ⟨m, h⟩ <;> rw [h]
  · exact halt_inv hs
  · exact record_inv (halt_inv hs) _
  · exact abort_inv (record_inv (halt_inv hs) _) _

/-- A store that the bounds check of 20_memory.md R68 let through lists offsets below the capacity only. -/
theorem writeBytes_inside {m : Memory} {a n v cap : Nat} (hm : ∀ c ∈ m.cells, c.1 < cap) (hroom : n = 0 ∨ a + n ≤ cap) :
    ∀ c ∈ (m.writeBytes a n v).cells, c.1 < cap := by
  intro c hc
  rcases mem_writeBytes hc with hold | ⟨hlo, hhi⟩
  · exact hm c hold
  · omega

/-- An instruction that succeeds with no error latched before it keeps the invariant. -/
theorem success_inv {f : Form} {s t : State} (hs : s.Inv) (herr : s.err = none) (h : Success f s t) : t.Inv := by
  obtain ⟨hwf, hinside, -, hbounds⟩ := hs
  obtain ⟨v, hv⟩ := h.stk
  simp only [State.Inv, hv, h.config, h.err]
  exact ⟨writeBytes_wf _ _ _ hwf, writeBytes_inside hinside h.room, fun _ => herr, hbounds⟩

theorem exec_inv {i : Instr} {s t : State} (hs : s.Inv) (herr : s.err = none) (h : exec i s = .next t) : t.Inv := by
  rcases exec_cases h with ⟨e, rfl⟩ | ⟨ev, m, rfl⟩ | hsucc
  · exact abort_inv hs _
  · exact abort_inv (record_inv hs ev) _
  · exact success_inv hs herr hsucc

/-- Settles O18, by the cases of a step. -/
theorem stepKeepsInvariant : Obligations.StepKeepsInvariant := by
  intro s t hs h
  rcases step_cases h with ⟨-, rfl⟩ | ⟨hrun, ⟨-, rfl⟩ | ⟨line, e, -, -, rfl⟩ | ⟨line, i, -, -, hexec⟩⟩
  · exact hs
  · exact implicitStop_inv hs
  · exact abort_inv hs _
  · exact exec_inv hs (inv_err_none hs hrun) hexec

/-- Settles O19: no cell is listed and no error is latched at reset. -/
theorem resetEstablishesInvariant : Obligations.ResetEstablishesInvariant := by
  have hreset : ∀ c : Config, c.wf → (State.resetWith c).Inv := fun c hc =>
    ⟨List.Pairwise.nil, nofun, fun _ => rfl, hc⟩
  exact ⟨hreset, hreset Config.default (by decide)⟩

/-- Settles O23: a latched error means a stopped engine, and no step of a stopped engine changes anything. -/
theorem errorLatchIsFinal : Obligations.ErrorLatchIsFinal := by
  intro k s t e hs herr hrun
  have hstopped : s.run = .stopped := by
    cases hr : s.run with
    | stopped => rfl
    | running =>
      have hnone := inv_err_none hs hr
      simp [herr] at hnone
  have hkept : ∀ u v : State, u.run = .stopped ∧ u.err = some e → step u = .next v →
      v.run = .stopped ∧ v.err = some e := by
    intro u v hu huv
    rw [step_of_stopped hu.1] at huv
    cases huv
    exact hu
  exact (run_preserves (M := Sys2Proof.core) hkept ⟨hstopped, herr⟩ hrun).2

end Sys2Proof.Machine

namespace Sys2Proof.Machine
/-! ### State family: reset values and register accesses (10_state.md R23, R24, R38) -/

theorem resetWith_reg (c : Config) (r : Reg) : (State.resetWith c).reg r = 0 := by
  simp [State.reg, State.resetWith]

/-- Settles O20: the register file is all zeros, and a buffer with no listed cell reads as `STACK_INIT`. -/
theorem resetValues : Obligations.ResetValues := by
  intro c
  exact ⟨resetWith_reg c, rfl, rfl, rfl, rfl, rfl, rfl, rfl, fun _ => rfl⟩

/-- Cutting a number to its low n bytes keeps each of them. -/
theorem byte_of_lowBytes {k n : Nat} (x : Nat) (hk : k < n) : x % 256 ^ n / 256 ^ k % 256 = x / 256 ^ k % 256 := by
  have hsplit : 256 ^ n = 256 ^ k * 256 ^ (n - k) := by rw [← pow_add]; congr 1; omega
  have hdvd : 256 ∣ 256 ^ (n - k) := dvd_pow_self 256 (by omega)
  rw [hsplit, Nat.mod_mul_right_div_self, Nat.mod_mod_of_dvd _ hdvd]

/-- Settles O32: a read at W bits is a read of the cell's low `NB_W` bytes. -/
theorem narrowingRead : Obligations.NarrowingRead := by
  intro s r w
  have hlow : (s.rdreg r w).toNat = (s.reg r).toNat % 2 ^ w.bits := rdreg_toNat s r w
  refine ⟨hlow, fun k hk => ?_⟩
  rw [hlow, two_pow_bits, byte_of_lowBytes _ hk]

/-- Settles O33: zero extension to 64 bits keeps the value of every width, and the write touches one cell. -/
theorem wideningWrite : Obligations.WideningWrite := by
  intro s r w v
  refine ⟨?_, fun q hq => ?_, rfl⟩
  · have hfits : v.toNat < 2 ^ 64 := lt_of_lt_of_le v.isLt (Nat.pow_le_pow_right (by decide) (bits_le w))
    rw [wrreg_reg, if_pos rfl, BitVec.toNat_setWidth, Nat.mod_eq_of_lt hfits]
  · rw [wrreg_reg, if_neg hq]

end Sys2Proof.Machine

namespace Sys2Proof.Machine
/-! ### State family: the program counter and the frames of every instruction (10_state.md R22, R25, R27, R30, R37) -/

/-- An instruction that ends with no error latched succeeded. -/
theorem success_of_err_none {i : Instr} {s t : State} (h : exec i s = .next t) (hterr : t.err = none) :
    Success i.toForm s t := by
  rcases exec_cases h with ⟨e, rfl⟩ | ⟨ev, m, rfl⟩ | hsucc
  · simp at hterr
  · simp at hterr
  · exact hsucc

/-- An instruction that latches an error keeps the program counter and the flags (60_exceptions.md R262). -/
theorem failure_keeps {i : Instr} {s t : State} (h : exec i s = .next t) (hserr : s.err = none) (hterr : t.err ≠ none) :
    t.pc = s.pc ∧ t.flags = s.flags := by
  rcases exec_cases h with ⟨e, rfl⟩ | ⟨ev, m, rfl⟩ | hsucc
  · exact ⟨rfl, rfl⟩
  · exact ⟨rfl, rfl⟩
  · exact absurd (hsucc.err.trans hserr) hterr

theorem jump_pc {src : Operand} {s t : State} (h : jump src s = .next t) :
    t.pc = BitVec.ofNat 64 (s.operandValue src .word) := by
  simp only [jump, finishRedirected_ok] at h
  cases h
  exact resolve_word s src

theorem call_pc {src : Operand} {s t : State} (h : call src s = .next t) (hterr : t.err = none) :
    t.pc = BitVec.ofNat 64 (s.operandValue src .word) := by
  unfold call at h
  rw [pushBytes_eq] at h
  split_ifs at h
  · cases h
    simp at hterr
  · cases h
    exact resolve_word s src

theorem ret_pc {s t : State} (h : execRet s = .next t) (hterr : t.err = none) :
    t.pc = BitVec.ofNat 64 (s.stk.readBytes (s.spNat - 8) 8 + 1) := by
  unfold execRet at h
  rw [popBytes_eq] at h
  split_ifs at h
  · cases h
    simp at hterr
  · cases h
    simp at hterr
  · cases h
    exact (BitVec.ofNat_add _ _).symm

/-- Settles O26: the three redirecting instructions by their own rules, every other one by what success leaves. -/
theorem programCounterAfterEveryStep : Obligations.ProgramCounterAfterEveryStep := by
  refine ⟨fun i s t hserr h => ⟨fun hterr => (failure_keeps h hserr hterr).1, fun hterr => ?_⟩, ?_⟩
  · have hsucc := success_of_err_none h hterr
    rw [exec_eq_execForm] at h
    generalize i.toForm = f at h hsucc
    split
    · exact jump_pc h
    · exact call_pc h hterr
    · exact ret_pc h hterr
    · rename_i hjump hcall hret
      refine hsucc.pc ?_
      cases f with
      | ret => exact absurd rfl hret
      | target o src =>
        cases o with
        | jump => exact absurd rfl (hjump src)
        | call => exact absurd rfl (hcall src)
        | printStack => rfl
      | stop | unary | printRegister | binary | setIndirect => rfl
  · intro s t hnot h
    rcases step_cases h with ⟨-, rfl⟩ | ⟨-, ⟨-, rfl⟩ | ⟨line, e, -, -, rfl⟩ | ⟨line, i, hfetch, hdec, -⟩⟩
    · rfl
    · exact implicitStop_pc s
    · rfl
    · rcases hnot with hnone | ⟨line', e, hfetch', hdec'⟩
      · simp [hfetch] at hnone
      · rw [hfetch] at hfetch'
        cases hfetch'
        simp [hdec] at hdec'

/-- Settles O27, from what success and failure leave of the flags. -/
theorem flagsWrittenByAluOnly : Obligations.FlagsWrittenByAluOnly := by
  intro i s t hserr h
  refine ⟨fun hno => ?_, fun hwrites hterr => (success_of_err_none h hterr).flagsSet hwrites⟩
  by_cases hterr : t.err = none
  · have hkind : i.toForm.opcode.writesFlags = false := hno.resolve_right (not_not.2 hterr)
    exact (success_of_err_none h hterr).flagsKept hkind
  · exact (failure_keeps h hserr hterr).2

/-- Settles O28: an abort keeps every register, and success those it may not write. -/
theorem registerFrame : Obligations.RegisterFrame := by
  intro i s t r h hkept
  rcases exec_cases h with ⟨e, rfl⟩ | ⟨ev, m, rfl⟩ | hsucc
  · rfl
  · rfl
  · exact hsucc.regs r hkept

/-- Settles O29: an abort stores nothing, and success the bytes at `x[SP]` only. -/
theorem stackBufferFrame : Obligations.StackBufferFrame := by
  intro i s t a h houtside
  rcases exec_cases h with ⟨e, rfl⟩ | ⟨ev, m, rfl⟩ | hsucc
  · rfl
  · rfl
  · obtain ⟨v, hv⟩ := hsucc.stk
    rw [hv]
    exact read_writeBytes_outside (by omega)

end Sys2Proof.Machine

namespace Sys2Proof.Machine
/-! ### State family: no instruction reads the flags or the instruction counter (10_state.md R30, R34)

Both statements come from one case analysis: every instruction is run beside itself from a state whose flags and count
are others. Only the count report of stop tells the two apart. -/

/-- The state with other flags and another instruction count. -/
def State.withFlagsCount (s : State) (f : Flags) (c : Word) : State := { s with flags := f, icount := c }

section
variable (s : State) (f : Flags) (c : Word)

@[simp] theorem withFlagsCount_pc : (s.withFlagsCount f c).pc = s.pc := rfl
@[simp] theorem withFlagsCount_config : (s.withFlagsCount f c).config = s.config := rfl
@[simp] theorem withFlagsCount_icount : (s.withFlagsCount f c).icount = c := rfl
@[simp] theorem withFlagsCount_reg (r : Reg) : (s.withFlagsCount f c).reg r = s.reg r := rfl
@[simp] theorem withFlagsCount_spNat : (s.withFlagsCount f c).spNat = s.spNat := rfl
@[simp] theorem withFlagsCount_rdreg (r : Reg) (w : Width) : (s.withFlagsCount f c).rdreg r w = s.rdreg r w := rfl
@[simp] theorem withFlagsCount_stackView : (s.withFlagsCount f c).stackView = s.stackView := rfl
@[simp] theorem withFlagsCount_nextAnswer : (s.withFlagsCount f c).nextAnswer = s.nextAnswer := rfl

@[simp] theorem withFlagsCount_resolve (src : Operand) (w : Width) :
    (s.withFlagsCount f c).resolve src w = s.resolve src w := by
  cases src <;> rfl

end

/-- The outcome `r'`, from `s` with flags `f` and count `c`, runs beside the outcome `r`, from `s`: their next states
differ at most in flags and count, the flags agree if they agreed before, and the count has advanced by as much. -/
def Beside (s : State) (f : Flags) (c : Word) (r r' : Result) : Prop :=
  ∀ t, r = .next t → ∃ g, (f = s.flags → g = t.flags) ∧
    r' = .next (t.withFlagsCount g (c + (t.icount - s.icount)))

section
variable {s u : State} {f g : Flags} {c : Word}

/-- Two executed instructions, each having advanced the count by one. -/
theorem beside_executed (hcount : u.icount = s.icount + 1) (hflags : f = s.flags → g = u.flags) :
    Beside s f c (.next u) (.next (u.withFlagsCount g (c + 1))) := by
  intro t ht
  cases ht
  refine ⟨g, hflags, ?_⟩
  rw [hcount, show s.icount + 1 - s.icount = 1 by bv_omega]

/-- Two aborts, the count and the flags being those before the instruction. -/
theorem beside_aborted (e : Error) (hcount : u.icount = s.icount) (hflags : u.flags = s.flags) :
    Beside s f c (.next (u.abort e)) (.next ((u.withFlagsCount f c).abort e)) := by
  intro t ht
  cases ht
  refine ⟨f, fun h => h.trans hflags.symm, ?_⟩
  rw [abort_icount, hcount, show c + (s.icount - s.icount) = c by bv_omega]
  rfl

end

section
variable (s : State) (f : Flags) (c : Word)

/-- An instruction that writes a register and all flags, or raises (40_engine_cycle.md R151). -/
theorem alu2_beside (op : AluOp) (w : Width) (rd : Reg) (src : Operand) :
    Beside s f c (s.finish (s.alu2 op w rd src))
      ((s.withFlagsCount f c).finish ((s.withFlagsCount f c).alu2 op w rd src)) := by
  simp only [State.alu2, withFlagsCount_rdreg, withFlagsCount_resolve]
  cases op w.bits (s.rdreg rd w) (s.resolve src w) with
  | error e => exact beside_aborted _ rfl rfl
  | ok p => exact beside_executed (u := ((s.wrreg rd w p.1).setflags w p.1 p.2).retire) rfl fun _ => rfl

/-- An instruction that writes all flags, or raises (43_logic_compare.md R205, R206). -/
theorem aluFlags_beside (op : AluOp) (w : Width) (ra : Reg) (src : Operand) :
    Beside s f c (s.finish (s.aluFlags op w ra src))
      ((s.withFlagsCount f c).finish ((s.withFlagsCount f c).aluFlags op w ra src)) := by
  simp only [State.aluFlags, withFlagsCount_rdreg, withFlagsCount_resolve]
  cases op w.bits (s.rdreg ra w) (s.resolve src w) with
  | error e => exact beside_aborted _ rfl rfl
  | ok p => exact beside_executed (u := (s.setflags w p.1 p.2).retire) rfl fun _ => rfl

theorem bitNot_beside (w : Width) (rd : Reg) :
    Beside s f c (bitNot w rd s) (bitNot w rd (s.withFlagsCount f c)) := by
  simp only [bitNot, withFlagsCount_rdreg, finish_ok]
  generalize aluNot w.bits (s.rdreg rd w) = r
  exact beside_executed (u := ((s.wrreg rd w r).setflags w r false).retire) rfl fun _ => rfl

/-- An instruction that writes one register and no flag. -/
theorem wrreg_beside (w : Width) (rd : Reg) (v : BitVec w.bits) :
    Beside s f c (s.finish (.ok (s.wrreg rd w v)))
      ((s.withFlagsCount f c).finish (.ok ((s.withFlagsCount f c).wrreg rd w v))) :=
  beside_executed (u := (s.wrreg rd w v).retire) rfl id

theorem assign_beside (w : Width) (rd : Reg) (src : Operand) :
    Beside s f c (assign w rd src s) (assign w rd src (s.withFlagsCount f c)) := by
  simp only [assign, withFlagsCount_resolve]
  exact wrreg_beside s f c w rd _

theorem setIndirect_beside (w : Width) (ri rv : Reg) :
    Beside s f c (setIndirect w ri rv s) (setIndirect w ri rv (s.withFlagsCount f c)) := by
  simp only [setIndirect, withFlagsCount_reg, withFlagsCount_rdreg]
  cases Reg.ofIndex (s.reg ri).toNat with
  | none => exact beside_aborted _ rfl rfl
  | some rd => exact wrreg_beside s f c w rd _

/-- The push half of push and call reads neither field. -/
theorem pushBytes_withFlagsCount (n v : Nat) :
    (s.withFlagsCount f c).pushBytes n v = (s.pushBytes n v).map (·.withFlagsCount f c) := by
  rw [pushBytes_eq, pushBytes_eq, withFlagsCount_config, withFlagsCount_spNat]
  by_cases hfull : s.config.stackCap < s.spNat + n
  · rw [if_pos hfull, if_pos hfull]
    rfl
  · rw [if_neg hfull, if_neg hfull]
    rfl

/-- The pop half of pop and return reads neither field. -/
theorem popBytes_withFlagsCount (n : Nat) :
    (s.withFlagsCount f c).popBytes n = (s.popBytes n).map fun p => (p.1, p.2.withFlagsCount f c) := by
  rw [popBytes_eq, popBytes_eq, withFlagsCount_config, withFlagsCount_spNat]
  by_cases hover : s.config.stackCap < s.spNat
  · rw [if_pos hover, if_pos hover]
    rfl
  · rw [if_neg hover, if_neg hover]
    by_cases hunder : s.spNat < n
    · rw [if_pos hunder, if_pos hunder]
      rfl
    · rw [if_neg hunder, if_neg hunder]
      rfl

theorem push_beside (w : Width) (rs : Reg) :
    Beside s f c (push w rs s) (push w rs (s.withFlagsCount f c)) := by
  rw [push, push, pushBytes_withFlagsCount, withFlagsCount_rdreg, pushBytes_eq]
  split_ifs
  · exact beside_aborted _ rfl rfl
  · exact beside_executed rfl id

theorem call_beside (src : Operand) :
    Beside s f c (call src s) (call src (s.withFlagsCount f c)) := by
  simp only [call, pushBytes_withFlagsCount, withFlagsCount_resolve, withFlagsCount_pc]
  rw [pushBytes_eq]
  split_ifs
  · exact beside_aborted _ rfl rfl
  · exact beside_executed rfl id

theorem pop_beside (w : Width) (rd : Reg) :
    Beside s f c (pop w rd s) (pop w rd (s.withFlagsCount f c)) := by
  rw [pop, pop, popBytes_withFlagsCount, popBytes_eq]
  split_ifs
  · exact beside_aborted _ rfl rfl
  · exact beside_aborted _ rfl rfl
  · exact beside_executed rfl id

theorem ret_beside : Beside s f c (execRet s) (execRet (s.withFlagsCount f c)) := by
  rw [execRet, execRet, popBytes_withFlagsCount, popBytes_eq]
  split_ifs
  · exact beside_aborted _ rfl rfl
  · exact beside_aborted _ rfl rfl
  · exact beside_executed rfl id

theorem jump_beside (src : Operand) : Beside s f c (jump src s) (jump src (s.withFlagsCount f c)) := by
  simp only [jump, withFlagsCount_resolve, finishRedirected_ok]
  exact beside_executed rfl id

/-- The emission of one event, from `s` itself or from `s` stopped (46_print.md R250). -/
theorem emit_beside {u : State} (ev : Event) (hcount : u.icount = s.icount) (hflags : u.flags = s.flags) :
    Beside s f c (.next (s.emitThenRetire u ev))
      (.next ((s.withFlagsCount f c).emitThenRetire (u.withFlagsCount f c) ev)) := by
  simp only [State.emitThenRetire, withFlagsCount_nextAnswer]
  cases s.nextAnswer with
  | ok =>
    have hretired : ((u.record ev).retire).icount = s.icount + 1 := by simp [hcount]
    exact beside_executed hretired fun h => h.trans hflags.symm
  | ioFault msg => exact beside_aborted (u := s.record ev) _ rfl rfl

/-- Stop, unless it reports a count that differs. -/
theorem stop_beside (hreport : s.config.reportCount = true → c = s.icount) :
    Beside s f c (execStop s) (execStop (s.withFlagsCount f c)) := by
  unfold execStop
  rw [withFlagsCount_config]
  by_cases h : s.config.reportCount = true
  · rw [if_pos h, if_pos h, withFlagsCount_icount, hreport h]
    exact emit_beside s f s.icount (u := s.halt) _ rfl rfl
  · rw [if_neg h, if_neg h]
    exact beside_executed (u := s.halt.retire) rfl id

/-- Every instruction runs beside itself whatever the flags and the count are, save a stop that reports its count. -/
theorem exec_beside (i : Instr) (hreport : i = .stop → s.config.reportCount = true → c = s.icount) :
    Beside s f c (exec i s) (exec i (s.withFlagsCount f c)) := by
  have hstop : i.toForm = .stop → i = .stop := fun h => by rw [← ofForm_toForm i, h]; rfl
  rw [exec_eq_execForm, exec_eq_execForm]
  generalize i.toForm = form at hstop
  cases form with
  | stop => exact stop_beside s f c (hreport (hstop rfl))
  | ret => exact ret_beside s f c
  | unary o w rd =>
    cases o with
    | not => exact bitNot_beside s f c w rd
    | push => exact push_beside s f c w rd
    | pop => exact pop_beside s f c w rd
  | printRegister r => exact emit_beside s f c _ rfl rfl
  | target o src =>
    cases o with
    | jump => exact jump_beside s f c src
    | call => exact call_beside s f c src
    | printStack =>
      simp only [execForm, printStack, withFlagsCount_resolve, withFlagsCount_reg, withFlagsCount_stackView]
      exact emit_beside s f c _ rfl rfl
  | binary o w rd src =>
    cases o with
    | set => exact assign_beside s f c w rd src
    | test => exact aluFlags_beside s f c aluAnd w rd src
    | compare => exact aluFlags_beside s f c aluSub w rd src
    | add => exact alu2_beside s f c aluAdd w rd src
    | sub => exact alu2_beside s f c aluSub w rd src
    | mul => exact alu2_beside s f c aluMul w rd src
    | div => exact alu2_beside s f c aluDiv w rd src
    | rem => exact alu2_beside s f c aluRem w rd src
    | and => exact alu2_beside s f c aluAnd w rd src
    | or => exact alu2_beside s f c aluOr w rd src
    | xor => exact alu2_beside s f c aluXor w rd src
  | setIndirect w ri rv => exact setIndirect_beside s f c w ri rv

theorem implicitStop_withFlags :
    (s.withFlagsCount f s.icount).implicitStop = s.implicitStop.withFlagsCount f s.icount := by
  unfold State.implicitStop
  rw [withFlagsCount_config, withFlagsCount_nextAnswer]
  split
  · cases s.nextAnswer <;> rfl
  · rfl

end

/-- One step from a state with other flags gives the same next state up to its flags. -/
theorem step_withFlags {s t : State} (f : Flags) (h : step s = .next t) :
    ∃ g, step (s.withFlagsCount f s.icount) = .next (t.withFlagsCount g t.icount) := by
  rcases step_cases h with
    ⟨hrun, rfl⟩ | ⟨hrun, ⟨hfetch, rfl⟩ | ⟨line, e, hfetch, hdec, rfl⟩ | ⟨line, i, hfetch, hdec, hexec⟩⟩
  · exact ⟨f, step_of_stopped hrun⟩
  · refine ⟨f, ?_⟩
    rw [step_of_endOfInput (s := s.withFlagsCount f s.icount) hrun hfetch, implicitStop_withFlags, implicitStop_icount]
  · exact ⟨f, step_of_decodeError (s := s.withFlagsCount f s.icount) hrun hfetch hdec⟩
  · obtain ⟨g, -, hg⟩ := exec_beside s f s.icount i (fun _ _ => rfl) t hexec
    refine ⟨g, ?_⟩
    rw [step_of_decoded (s := s.withFlagsCount f s.icount) hrun hfetch hdec, hg]
    congr 2
    bv_omega

/-- Settles O30, by induction on the number of steps. -/
theorem noInstructionReadsAFlag : Obligations.NoInstructionReadsAFlag := by
  intro k
  induction k with
  | zero =>
    intro s t f h
    cases h
    exact ⟨f, rfl⟩
  | succ k ih =>
    intro s t f h
    obtain ⟨u, hstep, hrest⟩ := run_succ_eq_next.1 h
    obtain ⟨g, hstep'⟩ := step_withFlags f hstep
    obtain ⟨g', hrest'⟩ := ih u t g hrest
    exact ⟨g', run_succ_eq_next.2 ⟨_, hstep', hrest'⟩⟩

/-- A stop that reports its count reports the changed one, and does nothing else with it. -/
theorem reportingStop_withCount {s t : State} (c : Word) (hreport : s.config.reportCount = true)
    (h : execStop s = .next t) :
    execStop (s.withFlagsCount s.flags c) = .next { t with
      icount := c + (t.icount - s.icount), events := s.events ++ [.countReport c] } := by
  simp only [execStop, withFlagsCount_config, hreport, if_true, State.emitThenRetire,
    withFlagsCount_nextAnswer] at h ⊢
  cases hanswer : s.nextAnswer with
  | ok =>
    simp only [hanswer] at h ⊢
    cases h
    rw [retire_icount, record_icount, halt_icount, show s.icount + 1 - s.icount = 1 by bv_omega]
    rfl
  | ioFault msg =>
    simp only [hanswer] at h ⊢
    cases h
    rw [abort_icount, record_icount, show c + (s.icount - s.icount) = c by bv_omega]
    rfl

/-- Settles O31: by `exec_beside` with the flags as they are, but for the stop that reports. -/
theorem noInstructionReadsIcount : Obligations.NoInstructionReadsIcount := by
  intro i s t c h
  by_cases hreport : i = .stop ∧ s.config.reportCount = true
  · obtain ⟨rfl, hconfig⟩ := hreport
    simp only [hconfig, and_self, if_true]
    exact reportingStop_withCount c hconfig h
  · obtain ⟨g, hflags, hnext⟩ := exec_beside s s.flags c i (fun hi hc => absurd ⟨hi, hc⟩ hreport) t h
    rw [if_neg hreport]
    rw [hflags rfl] at hnext
    exact hnext

end Sys2Proof.Machine

namespace Sys2Proof.Machine
/-! ### Memory family: little-endian access (20_memory.md R61, R62, R63) -/

/-- Byte k of a number read from the buffer is the byte at offset a + k (20_memory.md R61, R63). -/
theorem byte_of_readBytes {m : Memory} {a n k : Nat} (hk : k < n) :
    m.readBytes a n / 256 ^ k % 256 = (m.read (a + k)).toNat := by
  induction n generalizing a k with
  | zero => omega
  | succ n ih =>
    have hbyte : (m.read a).toNat < 256 := (m.read a).isLt
    rw [Memory.readBytes]
    cases k with
    | zero =>
      simp only [pow_zero, Nat.div_one, Nat.add_zero]
      omega
    | succ k =>
      have hdrop : ((m.read a).toNat + 256 * m.readBytes (a + 1) n) / 256 = m.readBytes (a + 1) n := by omega
      rw [pow_succ', ← Nat.div_div_eq_div_mul, hdrop, ih (by omega), Nat.add_right_comm, Nat.add_assoc]

/-- Settles O34: the number that `readBytes` gives, by its bound and its bytes. -/
theorem memReadIsLittleEndian : Obligations.MemReadIsLittleEndian := by
  intro s addr n hinside
  exact ⟨s.stk.readBytes addr n, if_pos hinside, readBytes_lt _ _ _, fun k hk => byte_of_readBytes hk⟩

/-- Settles O35: the buffer that `writeBytes` gives, read inside and outside the stored range. -/
theorem memWriteIsLittleEndian : Obligations.MemWriteIsLittleEndian := by
  intro s addr n v hinside
  exact ⟨s.stk.writeBytes addr n v, if_pos hinside, fun k hk => read_writeBytes_inside hk,
    fun a ha => read_writeBytes_outside ha⟩

end Sys2Proof.Machine

namespace Sys2Proof.Machine
/-! ### Memory family: every step has a next state (20_memory.md R61, R62, R68) -/

/-- An instruction ends in a next state: none of the ways it can end is a fault or a refusal. -/
theorem exec_has_next (i : Instr) (s : State) : ∃ t, exec i s = .next t := by
  have heffect := exec_effect i s
  generalize exec i s = r at heffect ⊢
  cases heffect with
  | raised e => exact ⟨_, rfl⟩
  | ioFault ev msg => exact ⟨_, rfl⟩
  | success t h => exact ⟨t, rfl⟩

/-- Settles O17, by the cases of the step cycle (40_engine_cycle.md R141). -/
theorem everyStepHasANextState : Obligations.EveryStepHasANextState := by
  intro s
  cases hrun : s.run with
  | stopped => exact ⟨_, step_of_stopped hrun⟩
  | running =>
    cases hfetch : s.fetch with
    | none => exact ⟨_, step_of_endOfInput hrun hfetch⟩
    | some line =>
      cases hdec : decodeLine line with
      | error e => exact ⟨_, step_of_decodeError hrun hfetch hdec⟩
      | ok i =>
        rw [step_of_decoded hrun hfetch hdec]
        exact exec_has_next i s

end Sys2Proof.Machine

namespace Sys2Proof.Machine
/-! ### Memory family: the four stack instructions (44_control_transfer.md R221, R222; 45_stack.md R240, R241)

One equation each, the bounds check's branches and the whole next state of every branch. -/

theorem exec_push (w : Width) (rs : Reg) (s : State) :
    exec (.unary .push w rs) s =
      if s.config.stackCap < s.spNat + w.bytes then .next (s.abort (.execute .stackOverflow))
      else .next { s.withReg .sp (s.spNat + w.bytes) with
        stk := s.stk.writeBytes s.spNat w.bytes (s.regValue rs w) }.advanced := by
  rw [exec_unary]
  simp only [execForm, push, pushBytes_eq, rdreg_toNat]
  split_ifs <;> rfl

theorem exec_call (src : Operand) (s : State) :
    exec (.target .call src) s =
      if s.config.stackCap < s.spNat + 8 then .next (s.abort (.execute .stackOverflow))
      else .next { s.withReg .sp (s.spNat + 8) with
        stk := s.stk.writeBytes s.spNat 8 s.pc.toNat
        pc := BitVec.ofNat 64 (s.operandValue src .word)
        icount := s.icount + 1 } := by
  rw [exec_target, ← resolve_word]
  simp only [execForm, call, pushBytes_eq]
  split_ifs <;> rfl

/-- The bytes a pop reads fit the width, so its widening write keeps them all. -/
theorem wrreg_readBytes (s : State) (w : Width) (rd : Reg) (m : Memory) (a : Nat) :
    s.wrreg rd w (BitVec.ofNat w.bits (m.readBytes a w.bytes)) = s.withReg rd (m.readBytes a w.bytes) := by
  rw [wrreg_ofNat, two_pow_bits, Nat.mod_eq_of_lt (readBytes_lt m a w.bytes)]

theorem exec_pop (w : Width) (rd : Reg) (s : State) :
    exec (.unary .pop w rd) s =
      if s.config.stackCap < s.spNat then .next (s.abort (.execute .stackOverflow))
      else if s.spNat < w.bytes then .next (s.abort (.execute .stackUnderflow))
      else .next ((s.withReg .sp (s.spNat - w.bytes)).withReg rd
        (s.stk.readBytes (s.spNat - w.bytes) w.bytes)).advanced := by
  rw [exec_unary, ← wrreg_readBytes]
  simp only [execForm, pop, popBytes_eq]
  split_ifs <;> rfl

theorem exec_ret (s : State) :
    exec .ret s =
      if s.config.stackCap < s.spNat then .next (s.abort (.execute .stackOverflow))
      else if s.spNat < 8 then .next (s.abort (.execute .stackUnderflow))
      else .next { s.withReg .sp (s.spNat - 8) with
        pc := BitVec.ofNat 64 (s.stk.readBytes (s.spNat - 8) 8 + 1)
        icount := s.icount + 1 } := by
  rw [exec_eq_execForm, BitVec.ofNat_add]
  simp only [Instr.toForm, execForm, execRet, popBytes_eq]
  split_ifs <;> rfl

/-- Settles O56: the branches of the four equations that a failed check takes. -/
theorem stackBoundsErrors : Obligations.StackBoundsErrors := by
  intro s overflow underflow
  refine ⟨fun w rs hfull => ?push, fun src hfull => ?call, fun w rd habove => ?popAbove, fun habove => ?retAbove,
    fun w rd hwithin hfew => ?popFew, fun hwithin hfew => ?retFew⟩
  case push =>
    rw [exec_push, if_pos hfull]
    rfl
  case call =>
    rw [exec_call, if_pos hfull]
    rfl
  case popAbove =>
    rw [exec_pop, if_pos habove]
    rfl
  case retAbove =>
    rw [exec_ret, if_pos habove]
    rfl
  case popFew =>
    rw [exec_pop, if_neg (Nat.not_lt.2 hwithin), if_pos hfew]
    rfl
  case retFew =>
    rw [exec_ret, if_neg (Nat.not_lt.2 hwithin), if_pos hfew]
    rfl

end Sys2Proof.Machine

namespace Sys2Proof.Machine
/-! ### Memory family: the stack pointer stays within the capacity (45_stack.md R243) -/

theorem withReg_spNat_of_ne {s : State} {r : Reg} (n : Nat) (hr : r ≠ .sp) : (s.withReg r n).spNat = s.spNat := by
  simp [State.spNat, hr.symm]

/-- A pointer moved to a place within a bound is within it. -/
theorem withReg_sp_spNat_le {s : State} {n cap : Nat} (hn : n ≤ cap) : (s.withReg .sp n).spNat ≤ cap := by
  rw [State.spNat, withReg_reg, if_pos rfl, BitVec.toNat_ofNat]
  exact (Nat.mod_le n _).trans hn

/-- The same for a state that moved the pointer and changed other fields too. -/
theorem spNat_le_of_regs {s t : State} {n cap : Nat} (hregs : t.regs = (s.withReg .sp n).regs) (hn : n ≤ cap) :
    t.spNat ≤ cap := by
  have hsame : t.spNat = (s.withReg .sp n).spNat := by simp only [State.spNat, State.reg, hregs]
  rw [hsame]
  exact withReg_sp_spNat_le hn

section
variable {s t : State} (hsp : s.spNat ≤ s.config.stackCap)
include hsp

/-- A push moves the pointer up only where the check found room. -/
theorem spNat_le_of_push {w : Width} {rs : Reg} (h : exec (.unary .push w rs) s = .next t) :
    t.spNat ≤ t.config.stackCap := by
  rw [exec_push] at h
  split_ifs at h with hfull <;> cases h
  · exact hsp
  · exact spNat_le_of_regs (s := s) (n := s.spNat + w.bytes) (by simp) (Nat.not_lt.1 hfull)

theorem spNat_le_of_call {src : Operand} (h : exec (.target .call src) s = .next t) :
    t.spNat ≤ t.config.stackCap := by
  rw [exec_call] at h
  split_ifs at h with hfull <;> cases h
  · exact hsp
  · exact spNat_le_of_regs (s := s) (n := s.spNat + 8) (by simp) (Nat.not_lt.1 hfull)

/-- A pop into another register moves the pointer down, if at all. -/
theorem spNat_le_of_pop {w : Width} {rd : Reg} (hrd : rd ≠ .sp) (h : exec (.unary .pop w rd) s = .next t) :
    t.spNat ≤ t.config.stackCap := by
  rw [exec_pop] at h
  split_ifs at h <;> cases h
  · exact hsp
  · exact hsp
  · rw [advanced_spNat, withReg_spNat_of_ne _ hrd]
    exact withReg_sp_spNat_le ((Nat.sub_le _ _).trans hsp)

theorem spNat_le_of_ret (h : exec .ret s = .next t) : t.spNat ≤ t.config.stackCap := by
  rw [exec_ret] at h
  split_ifs at h <;> cases h
  · exact hsp
  · exact hsp
  · exact spNat_le_of_regs (s := s) (n := s.spNat - 8) (by simp) ((Nat.sub_le _ _).trans hsp)

end

/-- Settles O58, one lemma for each of the four instructions. -/
theorem stackPointerStaysWithinCapacity : Obligations.StackPointerStaysWithinCapacity := by
  intro i s t _ hsp hkind h
  rcases hkind with ⟨w, rs, rfl⟩ | ⟨w, rd, hrd, rfl⟩ | ⟨src, rfl⟩ | rfl
  · exact spNat_le_of_push hsp h
  · exact spNat_le_of_pop hsp hrd h
  · exact spNat_le_of_call hsp h
  · exact spNat_le_of_ret hsp h

end Sys2Proof.Machine

namespace Sys2Proof
/-! ### Encoding family: the fields of an instruction's word (30_encoding.md R105, R107, R109)

The encoder and the decoder on fields, one round trip each way, then the same on 80-bit words. -/

theorem index_le (r : Reg) : r.index.val ≤ 16 := Nat.le_of_lt_succ r.index.isLt

/-- The register index comes back out of an `imm` field that holds one. -/
theorem rs_of_imm {f : Fields} {r : Reg} (himm : f.imm = r.immField) : f.rs = r.field := by
  rw [Fields.rs, himm]
  cases r <;> rfl

/-- An `imm` field that holds a register index is zero above it. -/
theorem immHigh_of_imm {f : Fields} {r : Reg} (himm : f.imm = r.immField) : f.immHigh = 0 := by
  rw [Fields.immHigh, himm]
  cases r <;> rfl

/-- An `imm` field with no bit above a register index is the one that register's encoding writes. -/
theorem immField_regOfField_rs {f : Fields} (hindex : f.rs.toNat ≤ 16) (hhigh : f.immHigh = 0) :
    (regOfField f.rs).immField = f.imm := by
  have hsplit : f.imm = f.immHigh ++ f.rs := by
    rw [Fields.immHigh, Fields.rs, BitVec.extractLsb'_append_extractLsb'_eq_extractLsb' (show 5 = 0 + 5 from rfl),
      BitVec.extractLsb'_eq_self]
  have hregister : ∀ v : BitVec 5, v.toNat ≤ 16 → (regOfField v).immField = (0 : BitVec 59) ++ v := by decide
  rw [hregister f.rs hindex, hsplit, hhigh]

/-- What `DecodeWord` asks of the fields of an operand at width `w` (30_encoding.md R107 to R109). -/
def Fields.OperandFits (f : Fields) (w : Width) : Prop :=
  (f.k = 0 → f.rs.toNat ≤ 16 ∧ f.immHigh = 0) ∧ (f.k = 1 → f.imm.toNat ≤ w.maxVal)

/-- What `DecodeWord` asks of the fields besides the opcode, in the rows of 30_encoding.md R107. -/
def Fields.Fits (f : Fields) : Opcode → Prop
  | .stop | .ret => f.w = 0 ∧ f.k = 0 ∧ f.rd = 0 ∧ f.z = 0 ∧ f.imm = 0
  | .unary _ => f.k = 0 ∧ f.rd.toNat ≤ 16 ∧ f.z = 0 ∧ f.imm = 0
  | .printRegister => f.w = 0 ∧ f.k = 0 ∧ f.rd.toNat ≤ 16 ∧ f.z = 0 ∧ f.imm = 0
  | .target _ => f.w = 0 ∧ f.rd = 0 ∧ f.z = 0 ∧ f.OperandFits .word
  | .binary _ => f.rd.toNat ≤ 16 ∧ f.z = 0 ∧ f.OperandFits (Width.ofCode f.w)
  | .setIndirect => f.k = 0 ∧ f.rd.toNat ≤ 16 ∧ f.z = 0 ∧ f.rs.toNat ≤ 16 ∧ f.immHigh = 0

/-- The checks of `DecodeWord` pass exactly when the fields fit the operation's row: shape by shape, `check_eq_none`'s
conditions that apply to it, in the row's order. -/
theorem check_eq_none_iff_fits {f : Fields} {o : Opcode} : f.check o = none ↔ f.Fits o := by
  rw [check_eq_none]
  cases o <;>
    simp [Fields.Fits, Fields.OperandFits, Fields.mbzOk, Fields.operandWidth, Opcode.shape, Shape.hasRd,
      Shape.hasOperand, Opcode.widthless] <;>
    tauto

/-- Fields that hold an operand as the encoder writes it decode to it. -/
theorem operand_of_fields {f : Fields} {src : Operand} (hk : f.k = src.kField) (himm : f.imm = src.immField) :
    f.operand = src := by
  cases src with
  | reg r => simp [Fields.operand, hk, Operand.kField, rs_of_imm himm]
  | imm v => simp [Fields.operand, hk, himm, Operand.kField, Operand.immField]

/-- Fields that hold a well-formed operand as the encoder writes it fit its width. -/
theorem operandFits_of_fields {f : Fields} {w : Width} {src : Operand} (hk : f.k = src.kField)
    (himm : f.imm = src.immField) (hwf : src.wf w = true) : f.OperandFits w := by
  cases src with
  | reg r => simp [Fields.OperandFits, hk, Operand.kField, rs_of_imm himm, immHigh_of_imm himm, index_le]
  | imm v => simpa [Fields.OperandFits, hk, himm, Operand.kField, Operand.immField, Operand.wf, immFits] using hwf

/-- An operand whose fields fit a width is well-formed at it, and the encoder writes those fields back. -/
theorem fields_of_operandFits {f : Fields} {w : Width} (hfits : f.OperandFits w) :
    f.operand.wf w = true ∧ f.operand.kField = f.k ∧ f.operand.immField = f.imm := by
  obtain ⟨hreg, himm⟩ := hfits
  rcases BitVec.eq_zero_or_eq_one f.k with hk | hk
  · obtain ⟨hindex, hhigh⟩ := hreg hk
    simp [Fields.operand, hk, Operand.wf, Operand.kField, Operand.immField, immField_regOfField_rs hindex hhigh]
  · simp [Fields.operand, hk, Operand.wf, Operand.kField, Operand.immField, immFits, himm hk]

theorem opcode_of_fields (form : Form) : Opcode.ofNumber form.fields.op.toNat = some form.opcode := by
  have hop : form.fields.op = BitVec.ofNat 5 form.opcode.number := by cases form <;> rfl
  rw [hop, BitVec.toNat_ofNat, Nat.mod_eq_of_lt (number_lt _), ofNumber_number]

/-- The fields of an abstract instruction decode to it. -/
theorem form_of_fields (form : Form) : form.fields.form form.opcode = form := by
  cases form with
  | stop | ret => rfl
  | unary | printRegister => simp [Form.fields, Form.opcode, Fields.form]
  | target o src => rw [Form.opcode, Fields.form, operand_of_fields (src := src) rfl rfl]
  | binary o w rd src =>
    rw [Form.opcode, Fields.form, operand_of_fields (src := src) rfl rfl]
    simp [Form.fields]
  | setIndirect w ri rv =>
    rw [Form.opcode, Fields.form, rs_of_imm (r := rv) rfl]
    simp [Form.fields]

/-- The fields of a well-formed abstract instruction fit its row. -/
theorem fits_of_fields {form : Form} (hwf : form.wf = true) : form.fields.Fits form.opcode := by
  cases form with
  | stop | ret => exact ⟨rfl, rfl, rfl, rfl, rfl⟩
  | unary | printRegister => simp [Form.fields, Form.opcode, Fields.Fits, index_le]
  | target o src => exact ⟨rfl, rfl, rfl, operandFits_of_fields rfl rfl hwf⟩
  | binary o w rd src =>
    refine ⟨?rd, rfl, operandFits_of_fields (src := src) rfl rfl ?width⟩
    case rd => simp [Form.fields, index_le]
    case width =>
      rw [Form.fields, ofCode_code]
      exact hwf
  | setIndirect w ri rv =>
    refine ⟨rfl, ?rd, rfl, ?rs, immHigh_of_imm (r := rv) rfl⟩
    case rd => simp [Form.fields, index_le]
    case rs => simp [rs_of_imm (f := (Form.setIndirect w ri rv).fields) rfl, index_le]

/-- An operation's number is the only one that names it (30_encoding.md R106). -/
theorem ofNumber_eq_some {n : Nat} {o : Opcode} (h : Opcode.ofNumber n = some o) : n = o.number := by
  unfold Opcode.ofNumber at h
  split at h <;> cases h <;> rfl

/-- Words are compared field by field. -/
theorem Fields.ext {f g : Fields} (hop : f.op = g.op) (hw : f.w = g.w) (hk : f.k = g.k) (hrd : f.rd = g.rd)
    (hz : f.z = g.z) (himm : f.imm = g.imm) : f = g := by
  cases f
  cases g
  simp_all

/-- Fields that fit the row of their operation spell a well-formed instruction, whose fields they are. -/
theorem fields_of_fits {f : Fields} {o : Opcode} (hnumber : Opcode.ofNumber f.op.toNat = some o) (hfits : f.Fits o) :
    (f.form o).wf = true ∧ (f.form o).fields = f := by
  have hop : BitVec.ofNat 5 o.number = f.op := by
    rw [← ofNumber_eq_some hnumber, BitVec.ofNat_toNat, BitVec.setWidth_eq]
  have hwidth : (Width.ofCode f.w).code = f.w := code_ofCode f.w
  cases o with
  | stop | ret =>
    obtain ⟨hw, hk, hrd, hz, himm⟩ := hfits
    exact ⟨rfl, Fields.ext hop hw.symm hk.symm hrd.symm hz.symm himm.symm⟩
  | unary o =>
    obtain ⟨hk, hrd, hz, himm⟩ := hfits
    exact ⟨rfl, Fields.ext hop hwidth hk.symm (field_regOfField hrd) hz.symm himm.symm⟩
  | printRegister =>
    obtain ⟨hw, hk, hrd, hz, himm⟩ := hfits
    exact ⟨rfl, Fields.ext hop hw.symm hk.symm (field_regOfField hrd) hz.symm himm.symm⟩
  | target o =>
    obtain ⟨hw, hrd, hz, hoperand⟩ := hfits
    obtain ⟨hwf, hk, himm⟩ := fields_of_operandFits hoperand
    exact ⟨hwf, Fields.ext hop hw.symm hk hrd.symm hz.symm himm⟩
  | binary o =>
    obtain ⟨hrd, hz, hoperand⟩ := hfits
    obtain ⟨hwf, hk, himm⟩ := fields_of_operandFits hoperand
    exact ⟨hwf, Fields.ext hop hwidth hk (field_regOfField hrd) hz.symm himm⟩
  | setIndirect =>
    obtain ⟨hk, hrd, hz, hrs, hhigh⟩ := hfits
    exact ⟨rfl, Fields.ext hop hwidth hk.symm (field_regOfField hrd) hz.symm (immField_regOfField_rs hrs hhigh)⟩

/-- Settles O1: the fields of a well-formed instruction pass the checks and spell it. -/
theorem decodeOfEncodeIsIdentity : Obligations.DecodeOfEncodeIsIdentity := by
  intro i hwf
  rw [wf_eq_toForm_wf] at hwf
  rw [decodeWord_eq_ok, encode, ofWord_toWord]
  exact ⟨i.toForm.opcode, opcode_of_fields _, check_eq_none_iff_fits.2 (fits_of_fields hwf), by
    rw [form_of_fields, ofForm_toForm]⟩

/-- Settles O2: fields that pass the checks are those of the instruction they spell. -/
theorem acceptedWordIsItsEncoding : Obligations.AcceptedWordIsItsEncoding := by
  intro word i h
  obtain ⟨o, hnumber, hcheck, rfl⟩ := decodeWord_eq_ok.1 h
  obtain ⟨hwf, hfields⟩ := fields_of_fits hnumber (check_eq_none_iff_fits.1 hcheck)
  exact ⟨by rw [wf_ofForm, hwf], by rw [encode, toForm_ofForm, hfields, toWord_ofWord]⟩

end Sys2Proof

namespace Sys2Proof
/-! ### Encoding family: what `DecodeWord` refuses (30_encoding.md R109, R110) -/

/-- The fields of a word as digits of its number (30_encoding.md R105). -/
theorem ofWord_eq_ofNat (word : InstrWord) :
    Fields.ofWord word =
      { op := BitVec.ofNat 5 (word.toNat / 2 ^ 75)
        w := BitVec.ofNat 2 (word.toNat / 2 ^ 73 % 4)
        k := BitVec.ofNat 1 (word.toNat / 2 ^ 72 % 2)
        rd := BitVec.ofNat 5 (word.toNat / 2 ^ 67 % 32)
        z := BitVec.ofNat 3 (word.toNat / 2 ^ 64 % 8)
        imm := BitVec.ofNat 64 (word.toNat % 2 ^ 64) } := by
  simp [Fields.ofWord, BitVec.extractLsb', Nat.shiftRight_eq_div_pow, ← BitVec.toNat_inj]

theorem width_ofWord (word : InstrWord) :
    Width.ofCode (Fields.ofWord word).w = Width.ofCode (BitVec.ofNat 2 (word.toNat / 2 ^ 73 % 4)) := by
  rw [ofWord_eq_ofNat]

theorem k_ofWord {word : InstrWord} {b : Nat} (hk : word.toNat / 2 ^ 72 % 2 = b) :
    (Fields.ofWord word).k = BitVec.ofNat 1 b := by
  rw [ofWord_eq_ofNat, hk]

theorem rd_ofWord (word : InstrWord) : (Fields.ofWord word).rd = BitVec.ofNat 5 (word.toNat / 2 ^ 67 % 32) := by
  rw [ofWord_eq_ofNat]

theorem imm_ofWord (word : InstrWord) : (Fields.ofWord word).imm = BitVec.ofNat 64 (word.toNat % 2 ^ 64) := by
  rw [ofWord_eq_ofNat]

theorem rs_ofWord (word : InstrWord) : (Fields.ofWord word).rs = BitVec.ofNat 5 (word.toNat % 32) := by
  rw [Fields.rs, ofWord_eq_ofNat, ← BitVec.toNat_inj]
  simp

theorem op_toNat_ofWord (word : InstrWord) : (Fields.ofWord word).op.toNat = word.toNat / 2 ^ 75 := by
  have hlt := word.isLt
  rw [ofWord_eq_ofNat, BitVec.toNat_ofNat]
  omega

theorem rd_toNat_ofWord (word : InstrWord) : (Fields.ofWord word).rd.toNat = word.toNat / 2 ^ 67 % 32 := by
  rw [rd_ofWord, BitVec.toNat_ofNat]
  omega

theorem imm_toNat_ofWord (word : InstrWord) : (Fields.ofWord word).imm.toNat = word.toNat % 2 ^ 64 := by
  rw [imm_ofWord, BitVec.toNat_ofNat, Nat.mod_mod]

theorem rs_toNat_ofWord (word : InstrWord) : (Fields.ofWord word).rs.toNat = word.toNat % 32 := by
  rw [rs_ofWord, BitVec.toNat_ofNat]
  omega

/-- A word is refused with the error of the first check that fails. -/
theorem decodeWord_of_check {word : InstrWord} {o : Opcode} {e : DecodeError}
    (hnumber : Opcode.ofNumber (word.toNat / 2 ^ 75) = some o) (hcheck : (Fields.ofWord word).check o = some e) :
    decodeWord word = .error e := by
  rw [← op_toNat_ofWord] at hnumber
  simp [decodeWord, Fields.decode, hnumber, hcheck]

theorem ofNumber_hasRd {n : Nat} (hassigned : n ≤ 20) (hshape : n ∉ [0, 9, 10, 17, 19]) :
    ∃ o, Opcode.ofNumber n = some o ∧ o.shape.hasRd = true := by
  have htable : ∀ n ≤ 20, n ∉ [0, 9, 10, 17, 19] → (Opcode.ofNumber n).any (·.shape.hasRd) = true := by decide
  exact (Option.any_eq_true _ _).1 (htable n hassigned hshape)

theorem ofNumber_binary {n : Nat} (h : n ∈ [1, 2, 3, 4, 5, 6, 11, 12, 13, 15, 16]) :
    ∃ b, Opcode.ofNumber n = some (.binary b) := by
  fin_cases h <;> exact ⟨_, rfl⟩

theorem ofNumber_target {n : Nat} (h : n ∈ [9, 17, 19]) : ∃ t, Opcode.ofNumber n = some (.target t) := by
  fin_cases h <;> exact ⟨_, rfl⟩

/-- An operation number above 20 is unassigned (30_encoding.md R106). -/
theorem ofNumber_eq_none {n : Nat} (h : 20 < n) : Opcode.ofNumber n = none := by
  unfold Opcode.ofNumber
  split <;> simp_all

theorem operandWidth_binary (f : Fields) (b : BinOp) : f.operandWidth (.binary b) = Width.ofCode f.w := rfl

theorem operandWidth_target (f : Fields) (t : TargetOp) : f.operandWidth (.target t) = .word := rfl

section
variable {f : Fields} {o : Opcode}

/-- The first check: the `rd` field. -/
theorem check_rd (hshape : o.shape.hasRd = true) (habove : 16 < f.rd.toNat) :
    f.check o = some (.invalidRegister (.field f.rd)) :=
  if_pos ⟨hshape, habove⟩

/-- The second check: the second register of set-indirect. -/
theorem check_rs (hrd : f.rd.toNat ≤ 16) (habove : 16 < f.rs.toNat) :
    f.check .setIndirect = some (.invalidRegister (.field f.rs)) := by
  rw [Fields.check, if_neg (fun h => by omega), if_pos ⟨rfl, habove⟩]

/-- The third check: the register form of an operand. -/
theorem check_operandReg (hrd : o.shape.hasRd = true → f.rd.toNat ≤ 16) (hshape : o.shape.hasOperand = true)
    (hk : f.k = 0) (habove : 16 < f.rs.toNat) :
    f.check o = some (.invalidOperand (.field f.imm) (f.operandWidth o)) := by
  have hrr : o.shape ≠ .rr := fun h => by simp [h, Shape.hasOperand] at hshape
  rw [Fields.check, if_neg (fun h => by have := hrd h.1; omega), if_neg (fun h => hrr h.1),
    if_pos ⟨hshape, hk, habove⟩]

/-- The fourth check: the immediate form of an operand. -/
theorem check_operandImm (hrd : o.shape.hasRd = true → f.rd.toNat ≤ 16) (hshape : o.shape.hasOperand = true)
    (hk : f.k = 1) (habove : (f.operandWidth o).maxVal < f.imm.toNat) :
    f.check o = some (.invalidOperand (.field f.imm) (f.operandWidth o)) := by
  have hrr : o.shape ≠ .rr := fun h => by simp [h, Shape.hasOperand] at hshape
  rw [Fields.check, if_neg (fun h => by have := hrd h.1; omega), if_neg (fun h => hrr h.1),
    if_neg (fun h => by simp [hk] at h), if_pos ⟨hshape, hk, habove⟩]

end

/-- Settles O4: no operation has such a number. -/
theorem unassignedOpcodeIsUnknown : Obligations.UnassignedOpcodeIsUnknown := by
  intro word habove
  have hnone : Opcode.ofNumber (Fields.ofWord word).op.toNat = none := by
    rw [op_toNat_ofWord, ofNumber_eq_none habove]
  rw [decodeWord, Fields.decode, hnone, ofWord_eq_ofNat]

/-- Settles O5, one check of the order of R109 for each clause. -/
theorem registerFieldAbove16IsInvalid : Obligations.RegisterFieldAbove16IsInvalid := by
  intro word op w k rd imm rs
  refine ⟨fun hassigned hshape habove => ?rd, fun hop hrd habove => ?second, fun hop hk hrd habove => ?ro,
    fun hop hk habove => ?o⟩
  case rd =>
    obtain ⟨o, hnumber, hhas⟩ := ofNumber_hasRd hassigned hshape
    rw [decodeWord_of_check hnumber (check_rd hhas (by rwa [rd_toNat_ofWord])), rd_ofWord]
  case second =>
    rw [decodeWord_of_check (congrArg Opcode.ofNumber hop)
      (check_rs (by rwa [rd_toNat_ofWord]) (by rwa [rs_toNat_ofWord])), rs_ofWord]
  case ro =>
    obtain ⟨b, hnumber⟩ := ofNumber_binary hop
    rw [decodeWord_of_check hnumber (check_operandReg (fun _ => by rwa [rd_toNat_ofWord]) rfl (k_ofWord hk)
      (by rwa [rs_toNat_ofWord])), imm_ofWord, operandWidth_binary, width_ofWord]
  case o =>
    obtain ⟨t, hnumber⟩ := ofNumber_target hop
    rw [decodeWord_of_check hnumber (check_operandReg (fun h => nomatch h) rfl (k_ofWord hk)
      (by rwa [rs_toNat_ofWord])), imm_ofWord, operandWidth_target]

/-- Settles O6: with the registers valid, the immediate's is the check that fails. -/
theorem immediateAboveMaxIsInvalid : Obligations.ImmediateAboveMaxIsInvalid := by
  intro word op w imm hop hk hrd habove
  obtain ⟨b, hnumber⟩ := ofNumber_binary hop
  have hwidth : (Fields.ofWord word).operandWidth (.binary b) = w := width_ofWord word
  rw [decodeWord_of_check hnumber (check_operandImm (fun _ => by rwa [rd_toNat_ofWord]) rfl (k_ofWord hk)
    (by rwa [hwidth, imm_toNat_ofWord])), imm_ofWord, hwidth]

end Sys2Proof

namespace Sys2Proof
/-! ### Encoding family: what `DecodeText` accepts (30_encoding.md R94 to R97)

One relation says which operand tokens spell which abstract instruction; the parser accepts exactly those, and the
decimal line of an instruction is one of them. -/

section
variable {α β : Type} {e : DecodeError}

@[simp] theorem ok_bind (a : α) (f : α → Except DecodeError β) : (Except.ok a >>= f) = f a := rfl

@[simp] theorem error_bind (f : α → Except DecodeError β) : (Except.error e >>= f) = .error e := rfl

@[simp] theorem pure_eq_ok (a : α) : (pure a : Except DecodeError α) = .ok a := rfl

/-- A sequence of two checks accepts exactly when both do. -/
theorem bind_eq_ok {x : Except DecodeError α} {f : α → Except DecodeError β} {b : β} :
    (x >>= f) = .ok b ↔ ∃ a, x = .ok a ∧ f a = .ok b := by
  cases x <;> simp

end

@[simp] theorem takeReg_nil (e : DecodeError) : takeReg e [] = .error e := rfl

theorem takeReg_cons {t : Token} {r : Reg} (h : Reg.ofName t = some r) (e : DecodeError) (rest : List Token) :
    takeReg e (t :: rest) = .ok (r, rest) := by
  simp only [takeReg, h]

@[simp] theorem takeOperand_nil (w : Width) (e : DecodeError) : takeOperand w e [] = .error e := rfl

theorem takeOperand_cons {w : Width} {t : Token} {src : Operand} (h : parseOperand w t = .ok src) (e : DecodeError)
    (rest : List Token) : takeOperand w e (t :: rest) = .ok (src, rest) := by
  simp only [takeOperand, h]

@[simp] theorem endOfLine_nil (e : DecodeError) : endOfLine e [] = .ok () := rfl

theorem endOfLine_of_ne_nil {ts : List Token} (h : ts ≠ []) (e : DecodeError) : endOfLine e ts = .error e := by
  cases ts with
  | nil => exact absurd rfl h
  | cons t rest => rfl

section
variable {e : DecodeError} {args : List Token} {form : Form}

/-- A sequence that begins with a register accepts a register's name and what the rest accepts after it. -/
theorem takeReg_bind_eq_ok {f : Reg × List Token → Except DecodeError Form}
    (h : (takeReg e args >>= f) = .ok form) :
    ∃ t r rest, args = t :: rest ∧ Reg.ofName t = some r ∧ f (r, rest) = .ok form := by
  obtain ⟨⟨r, rest⟩, hr, hf⟩ := bind_eq_ok.1 h
  obtain ⟨t, hargs, ht⟩ := takeReg_eq_ok hr
  exact ⟨t, r, rest, hargs, ht, hf⟩

theorem takeOperand_bind_eq_ok {w : Width} {f : Operand × List Token → Except DecodeError Form}
    (h : (takeOperand w e args >>= f) = .ok form) :
    ∃ t src rest, args = t :: rest ∧ parseOperand w t = .ok src ∧ f (src, rest) = .ok form := by
  obtain ⟨⟨src, rest⟩, hsrc, hf⟩ := bind_eq_ok.1 h
  obtain ⟨t, hargs, ht⟩ := takeOperand_eq_ok hsrc
  exact ⟨t, src, rest, hargs, ht, hf⟩

theorem endOfLine_bind_eq_ok {g : Form} (h : (endOfLine e args >>= fun _ => pure g) = .ok form) :
    args = [] ∧ g = form := by
  obtain ⟨_, hend, hform⟩ := bind_eq_ok.1 h
  exact ⟨endOfLine_eq_ok hend, Except.ok.inj hform⟩

end

/-- The operand tokens that spell an abstract instruction at the mnemonic's width (30_encoding.md R91, R97). -/
inductive Form.SpelledBy (w : Width) : Form → List Token → Prop
  | stop : SpelledBy w .stop []
  | ret : SpelledBy w .ret []
  | unary {o : UnOp} {t : Token} {rd : Reg} (ht : Reg.ofName t = some rd) : SpelledBy w (.unary o w rd) [t]
  | printRegister {t : Token} {r : Reg} (ht : Reg.ofName t = some r) : SpelledBy w (.printRegister r) [t]
  | target {o : TargetOp} {t : Token} {src : Operand} (ht : parseOperand .word t = .ok src) :
    SpelledBy w (.target o src) [t]
  | binary {o : BinOp} {t u : Token} {rd : Reg} {src : Operand} (ht : Reg.ofName t = some rd)
    (hu : parseOperand w u = .ok src) : SpelledBy w (.binary o w rd src) [t, u]
  | setIndirect {t u : Token} {ri rv : Reg} (ht : Reg.ofName t = some ri) (hu : Reg.ofName u = some rv) :
    SpelledBy w (.setIndirect w ri rv) [t, u]

/-- Tokens that spell an abstract instruction are accepted, whatever the arity error would be. -/
theorem parseArgs_of_spelledBy {w : Width} {form : Form} {args : List Token} (h : form.SpelledBy w args)
    (e : DecodeError) : parseArgs form.opcode w e args = .ok form := by
  cases h with
  | stop | ret => rfl
  | unary ht | printRegister ht => simp [Form.opcode, parseArgs, takeReg_cons ht]
  | target ht => simp [Form.opcode, parseArgs, takeOperand_cons ht]
  | binary ht hu => simp [Form.opcode, parseArgs, takeReg_cons ht, takeOperand_cons hu]
  | setIndirect ht hu => simp [Form.opcode, parseArgs, takeReg_cons ht, takeReg_cons hu]

/-- Accepted tokens spell the abstract instruction, whose operation is the mnemonic's. -/
theorem spelledBy_of_parseArgs {o : Opcode} {w : Width} {e : DecodeError} {args : List Token} {form : Form}
    (h : parseArgs o w e args = .ok form) : form.opcode = o ∧ form.SpelledBy w args := by
  cases o with
  | stop =>
    obtain ⟨rfl, rfl⟩ := endOfLine_bind_eq_ok h
    exact ⟨rfl, .stop⟩
  | ret =>
    obtain ⟨rfl, rfl⟩ := endOfLine_bind_eq_ok h
    exact ⟨rfl, .ret⟩
  | unary o =>
    obtain ⟨t, rd, rest, rfl, ht, hrest⟩ := takeReg_bind_eq_ok h
    obtain ⟨rfl, rfl⟩ := endOfLine_bind_eq_ok hrest
    exact ⟨rfl, .unary ht⟩
  | printRegister =>
    obtain ⟨t, r, rest, rfl, ht, hrest⟩ := takeReg_bind_eq_ok h
    obtain ⟨rfl, rfl⟩ := endOfLine_bind_eq_ok hrest
    exact ⟨rfl, .printRegister ht⟩
  | target o =>
    obtain ⟨t, src, rest, rfl, ht, hrest⟩ := takeOperand_bind_eq_ok h
    obtain ⟨rfl, rfl⟩ := endOfLine_bind_eq_ok hrest
    exact ⟨rfl, .target ht⟩
  | binary o =>
    obtain ⟨t, rd, rest, rfl, ht, hsecond⟩ := takeReg_bind_eq_ok h
    obtain ⟨u, src, rest, rfl, hu, hrest⟩ := takeOperand_bind_eq_ok hsecond
    obtain ⟨rfl, rfl⟩ := endOfLine_bind_eq_ok hrest
    exact ⟨rfl, .binary ht hu⟩
  | setIndirect =>
    obtain ⟨t, ri, rest, rfl, ht, hsecond⟩ := takeReg_bind_eq_ok h
    obtain ⟨u, rv, rest, rfl, hu, hrest⟩ := takeReg_bind_eq_ok hsecond
    obtain ⟨rfl, rfl⟩ := endOfLine_bind_eq_ok hrest
    exact ⟨rfl, .setIndirect ht hu⟩

/-- Tokens that spell an instruction are as many as its shape has operands (30_encoding.md R91). -/
theorem length_of_spelledBy {w : Width} {form : Form} {args : List Token} (h : form.SpelledBy w args) :
    args.length = form.opcode.shape.arity := by
  cases h <;> rfl

/-- An accepted line is a mnemonic and tokens that spell an abstract instruction. -/
theorem decodeText_eq_ok_iff {t0 : Token} {args : List Token} {i : Instr} :
    decodeText (t0 :: args) = .ok i ↔
      ∃ w form, lookupMnemonic t0 = some (form.opcode, w) ∧ form.SpelledBy w args ∧ i = Instr.ofForm form := by
  constructor
  · intro h
    obtain ⟨o, w, form, hlookup, hparse, hi⟩ := decodeText_eq_ok h
    obtain ⟨rfl, hspelled⟩ := spelledBy_of_parseArgs hparse
    exact ⟨w, form, hlookup, hspelled, hi⟩
  · rintro ⟨w, form, hlookup, hspelled, rfl⟩
    simp only [decodeText, hlookup, parseArgs_of_spelledBy hspelled]

/-! #### Surplus and missing tokens -/

/-- Tokens that spell an instruction, with more after them, run into the end of the line. -/
theorem parseArgs_surplus {w : Width} {form : Form} {args extra : List Token} (h : form.SpelledBy w args)
    (hextra : extra ≠ []) (e : DecodeError) : parseArgs form.opcode w e (args ++ extra) = .error e := by
  cases h with
  | stop | ret => simp [Form.opcode, parseArgs, endOfLine_of_ne_nil hextra]
  | unary ht | printRegister ht => simp [Form.opcode, parseArgs, takeReg_cons ht, endOfLine_of_ne_nil hextra]
  | target ht => simp [Form.opcode, parseArgs, takeOperand_cons ht, endOfLine_of_ne_nil hextra]
  | binary ht hu =>
    simp [Form.opcode, parseArgs, takeReg_cons ht, takeOperand_cons hu, endOfLine_of_ne_nil hextra]
  | setIndirect ht hu =>
    simp [Form.opcode, parseArgs, takeReg_cons ht, takeReg_cons hu, endOfLine_of_ne_nil hextra]

/-- Tokens that spell an instruction, cut short, leave a register or an operand missing. -/
theorem parseArgs_missing {w : Width} {form : Form} {args : List Token} {n : Nat} (h : form.SpelledBy w args)
    (hn : n < args.length) (e : DecodeError) : parseArgs form.opcode w e (args.take n) = .error e := by
  cases h with
  | stop | ret => cases hn
  | unary | printRegister | target =>
    obtain rfl : n = 0 := Nat.lt_one_iff.1 hn
    rfl
  | binary ht | setIndirect ht =>
    obtain rfl | rfl : n = 0 ∨ n = 1 := Nat.le_one_iff_eq_zero_or_eq_one.1 (Nat.le_of_lt_succ hn)
    · rfl
    · simp [Form.opcode, parseArgs, takeReg_cons ht]

/-- A line whose operand tokens are refused is refused with that error. -/
theorem decodeText_of_parseArgs_error {t0 : Token} {o : Opcode} {w : Width} {args : List Token} {e : DecodeError}
    (hlookup : lookupMnemonic t0 = some (o, w))
    (hparse : parseArgs o w (.wrongArity (.tokens t0 o.shape.arity args.length)) args = .error e) :
    decodeText (t0 :: args) = .error e := by
  simp only [decodeText, hlookup, hparse]

/-- Settles O10: the end of the line is checked last, after every token of the accepted line. -/
theorem surplusTokensAreWrongArity : Obligations.SurplusTokensAreWrongArity := by
  intro i t0 args extra haccepted hextra
  obtain ⟨w, form, hlookup, hspelled, -⟩ := decodeText_eq_ok_iff.1 haccepted
  rw [decodeText_of_parseArgs_error hlookup (parseArgs_surplus hspelled hextra _), length_of_spelledBy hspelled,
    List.length_append, length_of_spelledBy hspelled]

/-- Settles O11: the first token that is missing is the first that fails a check. -/
theorem missingTokensAreWrongArity : Obligations.MissingTokensAreWrongArity := by
  intro i t0 args n haccepted hn
  obtain ⟨w, form, hlookup, hspelled, -⟩ := decodeText_eq_ok_iff.1 haccepted
  rw [decodeText_of_parseArgs_error hlookup (parseArgs_missing hspelled hn _), length_of_spelledBy hspelled,
    List.length_take_of_le (Nat.le_of_lt hn)]

end Sys2Proof

namespace Sys2Proof
/-! ### Encoding family: the line of an instruction, and text against word (30_encoding.md R93 to R97, R111) -/

/-- The width a form's mnemonic stands for: Word where it carries none (30_encoding.md R97). -/
def Form.width : Form → Width
  | .unary _ w _ | .binary _ w _ _ | .setIndirect w _ _ => w
  | .stop | .ret | .printRegister _ | .target _ _ => .word

/-- The operand tokens of a form's line (30_encoding.md R91). -/
def Form.args : Form → List Token
  | .stop | .ret => []
  | .unary _ _ rd => [rd.name]
  | .printRegister r => [r.name]
  | .target _ src => [src.token]
  | .binary _ _ rd src => [rd.name, src.token]
  | .setIndirect _ ri rv => [ri.name, rv.name]

/-- The line of a form is its mnemonic and its operand tokens. -/
theorem tokens_eq (form : Form) : form.tokens = form.opcode.mnemonic form.width :: form.args := by
  cases form <;> rfl

theorem lookupMnemonic_form (form : Form) :
    lookupMnemonic (form.opcode.mnemonic form.width) = some (form.opcode, form.width) := by
  refine lookupMnemonic_mnemonic _ _ ?_
  cases form with
  | unary | binary | setIndirect => exact .inl rfl
  | stop | ret | printRegister | target => exact .inr rfl

theorem args_spell {form : Form} (hwf : form.wf = true) : form.SpelledBy form.width form.args := by
  cases form with
  | stop => exact .stop
  | ret => exact .ret
  | unary o w rd => exact .unary (ofName_name rd)
  | printRegister r => exact .printRegister (ofName_name r)
  | target o src => exact .target (parseOperand_token .word src hwf)
  | binary o w rd src => exact .binary (ofName_name rd) (parseOperand_token w src hwf)
  | setIndirect w ri rv => exact .setIndirect (ofName_name ri) (ofName_name rv)

/-- Settles O8: the tokens of the line spell the instruction's abstract form. -/
theorem decodeOfLineIsIdentity : Obligations.DecodeOfLineIsIdentity := by
  intro i hwf
  rw [wf_eq_toForm_wf] at hwf
  rw [Instr.tokens, tokens_eq, decodeText_eq_ok_iff]
  exact ⟨i.toForm.width, i.toForm, lookupMnemonic_form _, args_spell hwf, (ofForm_toForm i).symm⟩

/-- A line assembles exactly when it is accepted, to the word of its instruction (30_encoding.md R111). -/
theorem assemble_eq_ok {tokens : List Token} {word : InstrWord} :
    assemble tokens = .ok word ↔ ∃ i, decodeText tokens = .ok i ∧ encode i = word := by
  unfold assemble
  cases decodeText tokens <;> simp

/-- Settles O7: an accepted line is well-formed, so the word of its instruction decodes back. -/
theorem assembledWordDecodesAsItsLine : Obligations.AssembledWordDecodesAsItsLine := by
  intro tokens word h
  obtain ⟨i, hline, rfl⟩ := assemble_eq_ok.1 h
  rw [hline, decodeOfEncodeIsIdentity i (decodeText_wf hline)]

/-- Settles O9, by the line of the instruction that the word encodes. -/
theorem acceptedWordHasALine : Obligations.AcceptedWordHasALine := by
  intro word i h
  obtain ⟨hwf, hword⟩ := acceptedWordIsItsEncoding word i h
  exact ⟨i.tokens, assemble_eq_ok.2 ⟨i, decodeOfLineIsIdentity i hwf, hword⟩⟩

/-- A line and its word agree on the instruction, once the line is read and the word written. -/
theorem line_word_agree {tokens : List Token} {word : InstrWord} {i : Instr} (hline : decodeText tokens = .ok i)
    (hword : encode i = word) : assemble tokens = .ok word ∧ decodeWord word = .ok i := by
  have hassembled := assemble_eq_ok.2 ⟨i, hline, hword⟩
  exact ⟨hassembled, (assembledWordDecodesAsItsLine tokens word hassembled).trans hline⟩

/-- Settles O3: each line read and each word written, the words decoding back by O7. -/
theorem workedEncodings : Obligations.WorkedEncodings :=
  ⟨line_word_agree (by decide) (by decide), line_word_agree (by decide) (by decide),
    line_word_agree (by decide) (by decide), line_word_agree (by decide) (by decide),
    line_word_agree (by decide) (by decide), line_word_agree (by decide) (by decide),
    line_word_agree (by decide) (by decide), line_word_agree (by decide) (by decide),
    line_word_agree (by decide) (by decide), line_word_agree (by decide) (by decide)⟩

end Sys2Proof

namespace Sys2Proof
/-! ### Encoding family: tokens (30_encoding.md R92) -/

theorem tokenizeFrom_char {c : Char} (hc : isSeparator c = false) (cur : Token) (b : List Char) :
    tokenizeFrom cur (c :: b) = tokenizeFrom (cur ++ [c]) b := by
  simp [tokenizeFrom, hc]

/-- A run without separators is added to the token under way. -/
theorem tokenizeFrom_run {cur t : Token} (hrun : ∀ c ∈ t, isSeparator c = false) :
    tokenizeFrom cur t = tokenizeFrom (cur ++ t) [] := by
  induction t generalizing cur with
  | nil => rw [List.append_nil]
  | cons c t ih =>
    obtain ⟨hc, ht⟩ := List.forall_mem_cons.1 hrun
    rw [tokenizeFrom_char hc, ih ht, List.append_assoc, List.singleton_append]

/-- A separator ends the token under way, and the text after it is read afresh. -/
theorem tokenizeFrom_separator {c : Char} (hc : isSeparator c = true) (cur : Token) (b : List Char) :
    tokenizeFrom cur (c :: b) = tokenizeFrom cur [] ++ tokenize b := by
  by_cases hcur : cur = [] <;> simp [tokenizeFrom, tokenize, hc, hcur]

/-- The same wherever the separator stands. -/
theorem tokenizeFrom_append_separator {c : Char} (hc : isSeparator c = true) (cur : Token) (a b : List Char) :
    tokenizeFrom cur (a ++ c :: b) = tokenizeFrom cur a ++ tokenize b := by
  induction a generalizing cur with
  | nil => exact tokenizeFrom_separator hc cur b
  | cons d a ih =>
    rw [List.cons_append]
    cases hd : isSeparator d with
    | false => rw [tokenizeFrom_char hd, tokenizeFrom_char hd, ih]
    | true =>
      rw [tokenizeFrom_separator hd, tokenizeFrom_separator hd, List.append_assoc]
      exact congrArg _ (ih [])

theorem isSeparator_iff (c : Char) : isSeparator c = true ↔ c = ' ' ∨ c = '\t' := by
  simp [isSeparator, ← Char.toNat_inj]

/-- Settles O12: one lemma for a run, one for a separator. -/
theorem tokensAreMaximalRuns : Obligations.TokensAreMaximalRuns := by
  refine ⟨rfl, fun t hne hrun => ?run, fun a b c hc => tokenizeFrom_append_separator hc [] a b, isSeparator_iff⟩
  case run => rw [tokenize, tokenizeFrom_run hrun, List.nil_append, tokenizeFrom, if_neg hne]

end Sys2Proof

namespace Sys2Proof.Machine
/-! ### Encoding family: a line that does not decode (30_encoding.md R98) -/

/-- Settles O14: the step aborts with the decode error. -/
theorem decodeFailureChangesOnlyRunAndErr : Obligations.DecodeFailureChangesOnlyRunAndErr := by
  intro s line e hrun hfetch hdec
  rw [step_of_decodeError hrun hfetch hdec]
  rfl

end Sys2Proof.Machine

namespace Sys2Proof.Machine
/-! ### Engine cycle family: the stopped engine, the end of input and the count (40_engine_cycle.md R141 to R148) -/

/-- Settles O16, by induction on the number of steps: a step of a stopped engine answers the state itself. -/
theorem stoppedEngineDoesNothing : Obligations.StoppedEngineDoesNothing := by
  intro k s hrun
  induction k with
  | zero => rfl
  | succ k ih => exact run_succ_eq_next.2 ⟨s, step_of_stopped hrun, ih⟩

/-- An instruction that latches an error is not counted. -/
theorem failure_icount {i : Instr} {s t : State} (h : exec i s = .next t) (hserr : s.err = none)
    (hterr : t.err ≠ none) : t.icount = s.icount := by
  rcases exec_cases h with ⟨e, rfl⟩ | ⟨ev, m, rfl⟩ | hsucc
  · rfl
  · rfl
  · exact absurd (hsucc.err.trans hserr) hterr

/-- An emission adds its event and no other, whatever the sink answers (46_print.md R250). -/
theorem emitThenRetire_events {s t : State} (e : Event) (ht : t.events = s.events) :
    (s.emitThenRetire t e).events = s.events ++ [e] := by
  rcases emitThenRetire_cases s t e with ⟨-, h⟩ | ⟨msg, -, h⟩
  · rw [h, retire_events, record_events, ht]
  · rw [h, abort_events, record_events]

/-- With `REPORT_COUNT`, stop emits the count as it stands before its own increment (44_control_transfer.md R223). -/
theorem exec_stop_of_report {s : State} (hreport : s.config.reportCount = true) :
    exec .stop s = .next (s.emitThenRetire s.halt (.countReport s.icount)) :=
  if_pos hreport

/-- Settles O25: of the cases of a step only an instruction that succeeds counts, and a running engine of the invariant
has no error latched, so that an error after the step tells success from failure. -/
theorem icountCountsSuccessfulInstructions : Obligations.IcountCountsSuccessfulInstructions := by
  refine ⟨fun s t hs hstep => ?_, fun s t hreport hstop => ?_⟩
  · rcases step_cases hstep with ⟨hstopped, rfl⟩ |
      ⟨hrun, ⟨hfetch, rfl⟩ | ⟨line, e, hfetch, hdec, rfl⟩ | ⟨line, i, hfetch, hdec, hexec⟩⟩
    · refine ⟨fun ⟨hrun, _⟩ => ?_, fun _ => rfl⟩
      simp [hstopped] at hrun
    · refine ⟨fun ⟨_, ⟨line, i, hsome, _⟩, _⟩ => ?_, fun _ => implicitStop_icount s⟩
      simp [hfetch] at hsome
    · refine ⟨fun ⟨_, _, hnone⟩ => ?_, fun _ => rfl⟩
      simp at hnone
    · refine ⟨fun ⟨_, _, hterr⟩ => (success_of_err_none hexec hterr).icount, fun hnot => ?_⟩
      have hterr : t.err ≠ none := fun hnone => hnot ⟨hrun, ⟨line, i, hfetch, hdec⟩, hnone⟩
      exact failure_icount hexec (inv_err_none hs hrun) hterr
  · rw [exec_stop_of_report hreport] at hstop
    cases hstop
    exact emitThenRetire_events _ rfl

/-- Settles O13. -/
theorem stepRunsDecodedInstruction : Obligations.StepRunsDecodedInstruction :=
  fun _ _ _ hrun hfetch hdec => step_of_decoded hrun hfetch hdec

/-- The end of input is a program counter at or beyond the end of the program (40_engine_cycle.md R142). -/
theorem fetch_eq_none_iff {s : State} : s.fetch = none ↔ s.config.prog.length ≤ s.pc.toNat :=
  List.getElem?_eq_none_iff

theorem implicitStop_of_noReport {s : State} (hreport : s.config.reportCount = false) : s.implicitStop = s.halt := by
  simp [State.implicitStop, hreport]

theorem implicitStop_of_reportTaken {s : State} (hreport : s.config.reportCount = true) (hanswer : s.nextAnswer = .ok) :
    s.implicitStop = s.halt.record (.countReport s.icount) := by
  simp [State.implicitStop, hreport, hanswer]

theorem implicitStop_of_reportFault {s : State} {msg : Token} (hreport : s.config.reportCount = true)
    (hanswer : s.nextAnswer = .ioFault msg) :
    s.implicitStop = (s.halt.record (.countReport s.icount)).abort (.execute (.io msg)) := by
  simp [State.implicitStop, hreport, hanswer]

/-- Settles O15, from the implicit stop's three outcomes (40_engine_cycle.md R147). -/
theorem endOfInputStopsTheRun : Obligations.EndOfInputStopsTheRun := by
  intro s hrun hend
  rw [step_of_endOfInput hrun (fetch_eq_none_iff.2 hend)]
  refine ⟨fun hreport => ?_, fun hreport hanswer => ?_, fun msg hreport hanswer => ?_⟩
  · rw [implicitStop_of_noReport hreport]
    rfl
  · rw [implicitStop_of_reportTaken hreport hanswer]
    rfl
  · rw [implicitStop_of_reportFault hreport hanswer]
    rfl

end Sys2Proof.Machine

namespace Sys2Proof.Machine
/-! ### Set family (41_set.md R170, R171)

Both instructions end in one register write and the sequencer's work; they differ in how the register is named. -/

theorem retire_eq_advanced (s : State) : s.retire = s.advanced := rfl

/-- A step whose only effect is a widening write (10_state.md R24). -/
theorem finish_wrreg (s : State) (w : Width) (rd : Reg) (v : BitVec w.bits) :
    s.finish (.ok (s.wrreg rd w v)) = .next (s.withReg rd v.toNat).advanced := by
  rw [finish_ok, retire_eq_advanced, wrreg_eq_withReg]

theorem setIndirect_of_index {w : Width} {ri rv rd : Reg} {s : State} (hindex : (s.reg ri).toNat = rd.index.val) :
    setIndirect w ri rv s = s.finish (.ok (s.wrreg rd w (s.rdreg rv w))) := by
  simp only [setIndirect, hindex, ofIndex_index]

theorem setIndirect_of_invalid {w : Width} {ri rv : Reg} {s : State} (habove : 16 < (s.reg ri).toNat) :
    setIndirect w ri rv s = s.finish (.error (.raise (.invalidRegisterCast (s.reg ri)))) := by
  simp only [setIndirect, ofIndex_eq_none.2 habove]

/-- Settles O36: the write is of the resolved operand, whose value a well-formed literal fixes. -/
theorem setResult : Obligations.SetResult := by
  intro w rd src s hwf
  calc exec (.binary .set w rd src) s
      = s.finish (.ok (s.wrreg rd w (s.resolve src w))) := exec_binary .set w rd src s
    _ = .next (s.withReg rd (s.resolve src w).toNat).advanced := finish_wrreg s w rd _
    _ = .next (s.withReg rd (s.operandValue src w)).advanced := by rw [resolve_toNat hwf]

/-- Settles O37: the index names one register, and the write is of the narrowing read of `x[rv]`. -/
theorem setIndirectResult : Obligations.SetIndirectResult := by
  intro w ri rv rd s hindex
  rw [exec_setIndirect, setIndirect_of_index hindex, finish_wrreg, rdreg_toNat]

/-- Settles O38: an index above 16 names no register, so the instruction raises before any write. -/
theorem setIndirectInvalidIndex : Obligations.SetIndirectInvalidIndex := by
  intro w ri rv s habove
  rw [exec_setIndirect, setIndirect_of_invalid habove, finish_raise]
  rfl

end Sys2Proof.Machine

namespace Sys2Proof.Machine
/-! ### Arithmetic family (42_arithmetic.md R181 to R186)

Every instruction here is the template ALU2 (40_engine_cycle.md R151) over one width-specific operation, so the family
is three layers: each operation as numbers, the template once for success and once for an error, and the results. -/

/-! #### The operations, as numbers -/

theorem aluAdd_eq (bits : Nat) (a b : BitVec bits) :
    aluAdd bits a b =
      .ok (BitVec.ofNat bits (a.toNat + b.toNat), decide (maxOfBits bits < a.toNat + b.toNat)) := rfl

/-- Borrowing or not, the difference is `a + 2^W - b` modulo `2^W` (42_arithmetic.md R182). -/
theorem aluSub_eq (bits : Nat) (a b : BitVec bits) :
    aluSub bits a b = .ok (BitVec.ofNat bits (a.toNat + 2 ^ bits - b.toNat), decide (a.toNat < b.toNat)) := by
  by_cases hle : b.toNat ≤ a.toNat
  · have hshift : a.toNat + 2 ^ bits - b.toNat = a.toNat - b.toNat + 2 ^ bits := by omega
    have hofNat : BitVec.ofNat bits (a.toNat + 2 ^ bits - b.toNat) = BitVec.ofNat bits (a.toNat - b.toNat) :=
      BitVec.eq_of_toNat_eq (by simp [hshift])
    simp [aluSub, hle, hofNat]
  · simp [aluSub, hle, Nat.not_le.1 hle]

theorem aluMul_eq (bits : Nat) (a b : BitVec bits) :
    aluMul bits a b =
      .ok (BitVec.ofNat bits (a.toNat * b.toNat), decide (maxOfBits bits < a.toNat * b.toNat)) := rfl

theorem aluDiv_of_ne_zero {bits : Nat} (a : BitVec bits) {b : BitVec bits} (hb : b.toNat ≠ 0) :
    aluDiv bits a b = .ok (BitVec.ofNat bits (a.toNat / b.toNat), false) := if_neg hb

theorem aluRem_of_ne_zero {bits : Nat} (a : BitVec bits) {b : BitVec bits} (hb : b.toNat ≠ 0) :
    aluRem bits a b = .ok (BitVec.ofNat bits (a.toNat % b.toNat), false) := if_neg hb

theorem aluDiv_of_zero {bits : Nat} (a : BitVec bits) {b : BitVec bits} (hb : b.toNat = 0) :
    aluDiv bits a b = .error .divideByZero := if_pos hb

theorem aluRem_of_zero {bits : Nat} (a : BitVec bits) {b : BitVec bits} (hb : b.toNat = 0) :
    aluRem bits a b = .error .divideByZero := if_pos hb

/-! #### The state after a result -/

/-- The next state of an instruction of the template ALU2 whose W-bit result is the number `r`: the zero-extending
write, the flags and the sequencer's work (40_engine_cycle.md R145, R151, R152). -/
def State.withResult (s : State) (w : Width) (rd : Reg) (r : Nat) (ovf : Bool) : State :=
  { s.withReg rd r with flags := flagsOfNat w r ovf }.advanced

@[simp] theorem withResult_reg (s : State) (w : Width) (rd q : Reg) (r : Nat) (ovf : Bool) :
    (s.withResult w rd r ovf).reg q = if q = rd then BitVec.ofNat 64 r else s.reg q := withReg_reg s rd q r

@[simp] theorem withResult_flags (s : State) (w : Width) (rd : Reg) (r : Nat) (ovf : Bool) :
    (s.withResult w rd r ovf).flags = flagsOfNat w r ovf := rfl

/-- A W-bit result fits its cell (10_state.md R24). -/
theorem withResult_reg_toNat {w : Width} {r : Nat} (hr : r < 2 ^ w.bits) (s : State) (rd : Reg) (ovf : Bool) :
    ((s.withResult w rd r ovf).reg rd).toNat = r := by
  have hcell : r < 2 ^ 64 := hr.trans_le (Nat.pow_le_pow_right two_pos (bits_le w))
  rw [withResult_reg, if_pos rfl, BitVec.toNat_ofNat, Nat.mod_eq_of_lt hcell]

theorem withResult_regValue {w : Width} {r : Nat} (hr : r < 2 ^ w.bits) (s : State) (rd : Reg) (ovf : Bool) :
    (s.withResult w rd r ovf).regValue rd w = r := by
  rw [State.regValue, withResult_reg_toNat hr, Nat.mod_eq_of_lt hr]

/-- A result changes no operand but its own register. -/
theorem withResult_operandValue {src : Operand} {rd : Reg} (hsrc : src ≠ .reg rd) (s : State) (w : Width) (r : Nat)
    (ovf : Bool) : (s.withResult w rd r ovf).operandValue src w = s.operandValue src w := by
  cases src with
  | imm v => rfl
  | reg q =>
    have hq : q ≠ rd := fun h => hsrc (congrArg Operand.reg h)
    simp only [State.operandValue, State.regValue, withResult_reg, if_neg hq]

/-! #### The template -/

section
variable {s : State} {op : AluOp} {w : Width} {rd : Reg} {src : Operand} {n : Nat} {ovf : Bool}

theorem finish_alu2_of_ok {r : BitVec w.bits} (hop : op w.bits (s.rdreg rd w) (s.resolve src w) = .ok (r, ovf)) :
    s.finish (s.alu2 op w rd src) = .next (s.withResult w rd r.toNat ovf) := by
  simp only [State.alu2, hop, finish_ok, State.setflags, wrreg_eq_withReg, flagsOf_eq]
  rfl

/-- The exact result is narrowed to W bits (42_arithmetic.md R180). -/
theorem finish_alu2_ofNat
    (hop : op w.bits (s.rdreg rd w) (s.resolve src w) = .ok (BitVec.ofNat w.bits n, ovf)) :
    s.finish (s.alu2 op w rd src) = .next (s.withResult w rd (n % 2 ^ w.bits) ovf) := by
  rw [finish_alu2_of_ok hop, BitVec.toNat_ofNat]

theorem finish_alu2_ofNat_of_le (hn : n ≤ s.regValue rd w)
    (hop : op w.bits (s.rdreg rd w) (s.resolve src w) = .ok (BitVec.ofNat w.bits n, ovf)) :
    s.finish (s.alu2 op w rd src) = .next (s.withResult w rd n ovf) := by
  rw [finish_alu2_ofNat hop, Nat.mod_eq_of_lt (hn.trans_lt (regValue_lt s rd w))]

/-- An operation that raises writes neither the register nor the flags (60_exceptions.md R262). -/
theorem finish_alu2_of_error {e : ExecError}
    (hop : op w.bits (s.rdreg rd w) (s.resolve src w) = .error e) :
    s.finish (s.alu2 op w rd src) = .next (s.abort (.execute e)) := by
  simp only [State.alu2, hop, finish_raise]

end

/-! #### The results -/

/-- Settles O39: the template over `add_W`. -/
theorem additionResult : Obligations.AdditionResult := by
  intro w rd src s hwf a b r
  have hop : aluAdd w.bits (s.rdreg rd w) (s.resolve src w) =
      .ok (BitVec.ofNat w.bits (a + b), decide (w.maxVal < a + b)) := by
    rw [aluAdd_eq, rdreg_toNat, resolve_toNat hwf]
    rfl
  exact (exec_binary .add w rd src s).trans (finish_alu2_ofNat hop)

/-- Settles O40: the template over `sub_W`, whose two cases are one difference. -/
theorem subtractionResult : Obligations.SubtractionResult := by
  intro w rd src s hwf a b r
  have hop : aluSub w.bits (s.rdreg rd w) (s.resolve src w) =
      .ok (BitVec.ofNat w.bits (a + 2 ^ w.bits - b), decide (a < b)) := by
    rw [aluSub_eq, rdreg_toNat, resolve_toNat hwf]
  exact (exec_binary .sub w rd src s).trans (finish_alu2_ofNat hop)

/-- Settles O41: the template over `mul_W`. -/
theorem multiplicationResult : Obligations.MultiplicationResult := by
  intro w rd src s hwf a b r
  have hop : aluMul w.bits (s.rdreg rd w) (s.resolve src w) =
      .ok (BitVec.ofNat w.bits (a * b), decide (w.maxVal < a * b)) := by
    rw [aluMul_eq, rdreg_toNat, resolve_toNat hwf]
    rfl
  exact (exec_binary .mul w rd src s).trans (finish_alu2_ofNat hop)

/-- Settles O42: a quotient is at most the dividend, so narrowing keeps it. -/
theorem divisionResult : Obligations.DivisionResult := by
  intro w rd src s hwf hb r
  have hop : aluDiv w.bits (s.rdreg rd w) (s.resolve src w) = .ok (BitVec.ofNat w.bits r, false) := by
    rw [aluDiv_of_ne_zero _ (by rwa [resolve_toNat hwf]), rdreg_toNat, resolve_toNat hwf]
  exact (exec_binary .div w rd src s).trans (finish_alu2_ofNat_of_le (Nat.div_le_self _ _) hop)

/-- Settles O43: a remainder is at most the dividend, so narrowing keeps it. -/
theorem remainderResult : Obligations.RemainderResult := by
  intro w rd src s hwf hb r
  have hop : aluRem w.bits (s.rdreg rd w) (s.resolve src w) = .ok (BitVec.ofNat w.bits r, false) := by
    rw [aluRem_of_ne_zero _ (by rwa [resolve_toNat hwf]), rdreg_toNat, resolve_toNat hwf]
  exact (exec_binary .rem w rd src s).trans (finish_alu2_ofNat_of_le (Nat.mod_le _ _) hop)

/-- Settles O44: both operations test the divisor as it resolves at the width, before any write. -/
theorem zeroDivisorAborts : Obligations.ZeroDivisorAborts := by
  intro o w rd src s ho hwf hb
  have hzero : (s.resolve src w).toNat = 0 := by rw [resolve_toNat hwf, hb]
  rcases ho with rfl | rfl
  · exact (exec_binary .div w rd src s).trans (finish_alu2_of_error (aluDiv_of_zero _ hzero))
  · exact (exec_binary .rem w rd src s).trans (finish_alu2_of_error (aluRem_of_zero _ hzero))

/-! #### Add then sub (42_arithmetic.md R186) -/

/-- A sum modulo `m` lies below its second summand just when it wrapped around, and subtracting that summand modulo `m`
gives the first back. -/
theorem add_mod_sub_mod {a b m : Nat} (ha : a < m) (hb : b < m) :
    ((a + b) % m + m - b) % m = a ∧ ((a + b) % m < b ↔ m ≤ a + b) := by
  by_cases hwrap : m ≤ a + b
  · have hsum : (a + b) % m = a + b - m := by
      rw [Nat.mod_eq_sub_mod hwrap, Nat.mod_eq_of_lt (by omega)]
    have hback : a + b - m + m - b = a := by omega
    exact ⟨by rw [hsum, hback, Nat.mod_eq_of_lt ha], by omega⟩
  · have hsum : (a + b) % m = a + b := Nat.mod_eq_of_lt (by omega)
    have hback : a + b + m - b = a + m := by omega
    exact ⟨by rw [hsum, hback, Nat.add_mod_right, Nat.mod_eq_of_lt ha], by omega⟩

/-- Settles O45: the sub finds the sum in the register and the same operand, so it gives the old value back, and it
borrows just when the add carried. -/
theorem addSubRoundTrip : Obligations.AddSubRoundTrip := by
  intro w rd src s t u hwf hsrc hadd hsub
  let a := s.regValue rd w
  let b := s.operandValue src w
  have ha : a < 2 ^ w.bits := regValue_lt s rd w
  have hb : b < 2 ^ w.bits := operandValue_lt hwf
  obtain ⟨hback, hborrow⟩ := add_mod_sub_mod ha hb
  have ht : t = s.withResult w rd ((a + b) % 2 ^ w.bits) (decide (w.maxVal < a + b)) :=
    Host.Outcome.next.inj (hadd.symm.trans (additionResult w rd src s hwf))
  have hta : t.regValue rd w = (a + b) % 2 ^ w.bits := by
    rw [ht, withResult_regValue (Nat.mod_lt _ (Nat.two_pow_pos _))]
  have htb : t.operandValue src w = b := by rw [ht, withResult_operandValue hsrc]
  have hv : decide ((a + b) % 2 ^ w.bits < b) = t.flags.v := by
    rw [ht]
    exact decide_eq_decide.2 (by rw [hborrow, ← maxVal_succ, Nat.succ_le_iff])
  have hu : u = t.withResult w rd ((t.regValue rd w + 2 ^ w.bits - t.operandValue src w) % 2 ^ w.bits)
      (decide (t.regValue rd w < t.operandValue src w)) :=
    Host.Outcome.next.inj (hsub.symm.trans (subtractionResult w rd src t hwf))
  rw [hta, htb, hback, hv] at hu
  rw [hu]
  exact ⟨withResult_reg_toNat ha t rd _, withResult_flags t w rd a _⟩

end Sys2Proof.Machine

namespace Sys2Proof.Machine
/-! ### Logic and comparison family (43_logic_compare.md R200 to R206)

And, Or and Xor are the template ALU2 (40_engine_cycle.md R151) over a bitwise operation, Not is its write with one
operand, and Test and Compare are the template without the write. -/

/-! #### The operations, as numbers -/

/-- And of the two operands as the template reads them (R201), for And and for Test. -/
theorem and_operands_toNat {src : Operand} {w : Width} (hwf : src.wf w = true) (s : State) (rd : Reg) :
    (s.rdreg rd w &&& s.resolve src w).toNat = s.regValue rd w &&& s.operandValue src w := by
  rw [BitVec.toNat_and, rdreg_toNat, resolve_toNat hwf]

/-- The complement needs no narrowing, since `MAX_W - a` is at most `MAX_W` (R204). -/
theorem aluNot_toNat (w : Width) (a : BitVec w.bits) : (aluNot w.bits a).toNat = w.maxVal - a.toNat := by
  have hlt : w.maxVal - a.toNat < 2 ^ w.bits := by
    rw [← maxVal_succ]
    omega
  rw [aluNot, BitVec.toNat_ofNat]
  exact Nat.mod_eq_of_lt hlt

/-- Two numbers below `m` are equal just when their difference modulo `m` is zero. -/
theorem sub_mod_eq_zero_iff {a b m : Nat} (ha : a < m) (hb : b < m) : (a + m - b) % m = 0 ↔ a = b := by
  rw [Nat.add_sub_assoc hb.le]
  obtain hlt | hle := lt_or_ge a b
  · have hmod : (a + (m - b)) % m = a + (m - b) := Nat.mod_eq_of_lt (by omega)
    omega
  · have hshift : a + (m - b) = a - b + m := by omega
    have hmod : (a + (m - b)) % m = a - b := by
      rw [hshift, Nat.add_mod_right, Nat.mod_eq_of_lt (by omega)]
    omega

/-- The flags of a subtraction order its operands (R206): Z is equality and V the unsigned order. -/
theorem flagsOfNat_sub {w : Width} {a b : Nat} (ha : a < 2 ^ w.bits) (hb : b < 2 ^ w.bits) :
    flagsOfNat w ((a + 2 ^ w.bits - b) % 2 ^ w.bits) (decide (a < b)) =
      { z := decide (a = b), v := decide (a < b),
        s := decide (2 ^ (w.bits - 1) ≤ (a + 2 ^ w.bits - b) % 2 ^ w.bits) } := by
  simp only [flagsOfNat, sub_mod_eq_zero_iff ha hb]

/-! #### The ends of the two shapes -/

/-- A W-bit result written and flagged, then the sequencer's work. -/
theorem finish_wrreg_setflags (s : State) (w : Width) (rd : Reg) (r : BitVec w.bits) (ovf : Bool) :
    s.finish (.ok ((s.wrreg rd w r).setflags w r ovf)) = .next (s.withResult w rd r.toNat ovf) := by
  rw [finish_ok, retire_eq_advanced, State.setflags, wrreg_eq_withReg, flagsOf_eq]
  rfl

/-- The template without the write changes the flags only (R205, R206). -/
theorem finish_aluFlags_of_ok {s : State} {op : AluOp} {w : Width} {ra : Reg} {src : Operand} {r : BitVec w.bits}
    {ovf : Bool} (hop : op w.bits (s.rdreg ra w) (s.resolve src w) = .ok (r, ovf)) :
    s.finish (s.aluFlags op w ra src) = .next { s with flags := flagsOfNat w r.toNat ovf }.advanced := by
  simp only [State.aluFlags, hop, finish_ok, retire_eq_advanced, State.setflags, flagsOf_eq]

/-! #### The results -/

/-- Settles O46: the template over each bitwise operation, which acts on the numbers as on the words. -/
theorem logicResult : Obligations.LogicResult := by
  intro w rd src s hwf a b
  have hand : (s.rdreg rd w &&& s.resolve src w).toNat = a &&& b := and_operands_toNat hwf s rd
  have hor : (s.rdreg rd w ||| s.resolve src w).toNat = a ||| b := by
    rw [BitVec.toNat_or, rdreg_toNat, resolve_toNat hwf]
  have hxor : (s.rdreg rd w ^^^ s.resolve src w).toNat = a ^^^ b := by
    rw [BitVec.toNat_xor, rdreg_toNat, resolve_toNat hwf]
  rw [← hand, ← hor, ← hxor]
  exact ⟨(exec_binary .and w rd src s).trans (finish_alu2_of_ok (op := aluAnd) rfl),
    (exec_binary .or w rd src s).trans (finish_alu2_of_ok (op := aluOr) rfl),
    (exec_binary .xor w rd src s).trans (finish_alu2_of_ok (op := aluXor) rfl)⟩

/-- Settles O47: the complement of the narrowing read, written and flagged. -/
theorem notResult : Obligations.NotResult := by
  intro w rd s r
  have hr : (aluNot w.bits (s.rdreg rd w)).toNat = r := by rw [aluNot_toNat, rdreg_toNat]
  rw [← hr]
  exact (exec_unary .not w rd s).trans (finish_wrreg_setflags s w rd _ false)

/-- Settles O48: the template without the write, over `and_W` and over `sub_W`. -/
theorem testCompareResult : Obligations.TestCompareResult := by
  intro w ra src s hwf a b
  constructor
  · have hand : (s.rdreg ra w &&& s.resolve src w).toNat = a &&& b := and_operands_toNat hwf s ra
    rw [← hand]
    exact (exec_binary .test w ra src s).trans (finish_aluFlags_of_ok (op := aluAnd) rfl)
  · have hop : aluSub w.bits (s.rdreg ra w) (s.resolve src w) =
        .ok (BitVec.ofNat w.bits (a + 2 ^ w.bits - b), decide (a < b)) := by
      rw [aluSub_eq, rdreg_toNat, resolve_toNat hwf]
    rw [← flagsOfNat_sub (regValue_lt s ra w) (operandValue_lt hwf), ← BitVec.toNat_ofNat]
    exact (exec_binary .compare w ra src s).trans (finish_aluFlags_of_ok hop)

end Sys2Proof.Machine

namespace Sys2Proof.Machine
/-! ### Control transfer family (44_control_transfer.md R220 to R224)

Call and return are the branches of `exec_call` and `exec_ret` in which the bounds checks pass; jump, the emission and
the stop without a report get their equations here. -/

/-! #### Jump, call and return -/

theorem exec_jump (src : Operand) (s : State) :
    exec (.target .jump src) s = .next (s.setPc (BitVec.ofNat 64 (s.operandValue src .word))).count := by
  rw [exec_target, ← resolve_word]
  rfl

/-- Settles O49. -/
theorem jumpResult : Obligations.JumpResult := exec_jump

/-- Settles O50: 8 bytes free are what the check of call asks for. -/
theorem callResult : Obligations.CallResult := by
  intro src s hroom
  rw [exec_call, if_neg (Nat.not_lt.2 hroom)]

/-- Settles O51: the two hypotheses are the two checks of return. -/
theorem returnResult : Obligations.ReturnResult := by
  intro s henough hwithin
  rw [exec_ret, if_neg (Nat.not_lt.2 hwithin), if_neg (Nat.not_lt.2 henough)]

/-! #### Call then return (R224) -/

/-- A pointer set to a number that fits its cell has not wrapped around. -/
theorem spNat_of_reg_sp {s : State} {n : Nat} (hsp : s.reg .sp = BitVec.ofNat 64 n) (hn : n < 2 ^ 64) :
    s.spNat = n := by
  rw [State.spNat, hsp, BitVec.toNat_ofNat, Nat.mod_eq_of_lt hn]

/-- A cell stored as 8 bytes is read back whole. -/
theorem readBytes_writeBytes_word (m : Memory) (a : Nat) (v : Word) :
    (m.writeBytes a 8 v.toNat).readBytes a 8 = v.toNat := by
  rw [readBytes_writeBytes]
  exact Nat.mod_eq_of_lt v.isLt

/-- Settles O53: the return finds the pointer 8 above the call's and the call's own index in the bytes between. -/
theorem callReturnSymmetry : Obligations.CallReturnSymmetry := by
  intro src s t u hwf hroom hcall hconfig hsp hframe
  obtain ⟨-, hcap⟩ := hwf
  have ht := Host.Outcome.next.inj (hcall.symm.trans (callResult src s hroom))
  have htsp : t.reg .sp = BitVec.ofNat 64 (s.spNat + 8) := by
    rw [ht]
    exact withReg_reg s .sp .sp (s.spNat + 8)
  have husp : u.spNat = s.spNat + 8 := spNat_of_reg_sp (hsp.trans htsp) (hroom.trans_lt hcap)
  have hback : u.spNat - 8 = s.spNat := by omega
  have hpopped : u.stk.readBytes s.spNat 8 = s.pc.toNat := by
    rw [readBytes_congr hframe, ht]
    exact readBytes_writeBytes_word s.stk s.spNat s.pc
  have hresume : BitVec.ofNat 64 (s.pc.toNat + 1) = s.pc + 1 := by
    rw [BitVec.ofNat_add, BitVec.ofNat_toNat, BitVec.setWidth_eq]
    rfl
  rw [returnResult u (by omega) (by rwa [husp, hconfig]), hback, hpopped, hresume]

/-! #### Stop (R223) -/

section
variable {s : State}

theorem emitThenRetire_of_ok (hanswer : s.nextAnswer = .ok) (t : State) (e : Event) :
    s.emitThenRetire t e = (t.record e).retire := by
  simp only [State.emitThenRetire, hanswer]

theorem emitThenRetire_of_ioFault {msg : Token} (hanswer : s.nextAnswer = .ioFault msg) (t : State) (e : Event) :
    s.emitThenRetire t e = (s.record e).abort (.execute (.io msg)) := by
  simp only [State.emitThenRetire, hanswer]

theorem exec_stop_of_noReport (hreport : s.config.reportCount = false) : exec .stop s = .next s.halt.retire :=
  if_neg (ne_true_of_eq_false hreport)

end

/-- Settles O52, one outcome for no report, a report taken and a report that faults. -/
theorem stopResult : Obligations.StopResult := by
  intro s
  refine ⟨fun hreport => ?_, fun hreport hanswer => ?_, fun msg hreport hanswer => ?_⟩
  · rw [exec_stop_of_noReport hreport]
    rfl
  · rw [exec_stop_of_report hreport, emitThenRetire_of_ok hanswer]
    rfl
  · rw [exec_stop_of_report hreport, emitThenRetire_of_ioFault hanswer]
    rfl

end Sys2Proof.Machine

namespace Sys2Proof.Machine
/-! ### Stack family (45_stack.md R240 to R242)

Push and pop are the branches of `exec_push` and `exec_pop` in which the bounds checks pass. -/

/-- Settles O54: the room asked for is what the check of push asks for. -/
theorem pushResult : Obligations.PushResult := by
  intro w rs s hroom
  rw [exec_push, if_neg (Nat.not_lt.2 hroom)]

/-- Settles O55: the two hypotheses are the two checks of pop. -/
theorem popResult : Obligations.PopResult := by
  intro w rd s henough hwithin
  rw [exec_pop, if_neg (Nat.not_lt.2 hwithin), if_neg (Nat.not_lt.2 henough)]

/-! #### Push then pop (R242) -/

/-- A register's low W bits, stored as W bits' worth of bytes, are read back whole. -/
theorem readBytes_writeBytes_regValue (m : Memory) (a : Nat) (s : State) (r : Reg) (w : Width) :
    (m.writeBytes a w.bytes (s.regValue r w)).readBytes a w.bytes = s.regValue r w := by
  rw [readBytes_writeBytes, ← two_pow_bits, Nat.mod_eq_of_lt (regValue_lt s r w)]

/-- The narrowing read of a register fits a 64-bit cell (10_state.md R23). -/
theorem regValue_lt_cell (s : State) (r : Reg) (w : Width) : s.regValue r w < 2 ^ 64 :=
  (regValue_lt s r w).trans_le (Nat.pow_le_pow_right two_pos (bits_le w))

/-- The whole state after a push and a pop of the same width: the pop finds the pointer where the push left it and the
pushed bytes below it. -/
theorem exec_pop_of_push {w : Width} {ra : Reg} {s t : State} (hwf : s.config.wf)
    (hroom : s.spNat + w.bytes ≤ s.config.stackCap) (hpush : exec (.unary .push w ra) s = .next t) (rb : Reg) :
    exec (.unary .pop w rb) t = .next ((t.withReg .sp s.spNat).withReg rb (s.regValue ra w)).advanced := by
  obtain ⟨-, hcap⟩ := hwf
  have ht := Host.Outcome.next.inj (hpush.symm.trans (pushResult w ra s hroom))
  have hreg : t.reg .sp = BitVec.ofNat 64 (s.spNat + w.bytes) := by
    rw [ht]
    exact withReg_reg s .sp .sp (s.spNat + w.bytes)
  have htsp : t.spNat = s.spNat + w.bytes := spNat_of_reg_sp hreg (hroom.trans_lt hcap)
  have hwithin : t.spNat ≤ t.config.stackCap := by
    rw [htsp, ht]
    exact hroom
  have hpopped : t.stk.readBytes s.spNat w.bytes = s.regValue ra w := by
    rw [ht]
    exact readBytes_writeBytes_regValue s.stk s.spNat s ra w
  have hback : t.spNat - w.bytes = s.spNat := by omega
  rw [popResult w rb t (by omega) hwithin, hback, hpopped]

/-- Settles O57: the pop's last write is of the pushed value, and its write before that of the old pointer. -/
theorem pushPopRoundTrip : Obligations.PushPopRoundTrip := by
  intro w ra rb s t u hwf hroom hpush hpop
  have hu := Host.Outcome.next.inj (hpop.symm.trans (exec_pop_of_push hwf hroom hpush rb))
  subst hu
  refine ⟨?value, fun hrb => ?pointer⟩
  case value =>
    rw [advanced_reg, withReg_reg, if_pos rfl, BitVec.toNat_ofNat, Nat.mod_eq_of_lt (regValue_lt_cell s ra w)]
  case pointer =>
    rw [advanced_reg, withReg_reg, if_neg hrb.symm, withReg_reg, if_pos rfl, State.spNat, BitVec.ofNat_toNat,
      BitVec.setWidth_eq]

end Sys2Proof.Machine

namespace Sys2Proof.Machine
/-! ### Print family (46_print.md R250 to R252)

The event record only grows, and each print instruction is one emission whose outcome the sink's answer decides. -/

/-! #### The event record (R250) -/

/-- The implicit stop emits nothing or the count report, which stays recorded when it faults (40_engine_cycle.md
R147). -/
theorem implicitStop_events (s : State) :
    s.implicitStop.events = s.events ∨ ∃ e, s.implicitStop.events = s.events ++ [e] := by
  rcases implicitStop_cases s with h | h | ⟨msg, h⟩ <;> rw [h]
  · exact .inl rfl
  · exact .inr ⟨_, rfl⟩
  · exact .inr ⟨_, rfl⟩

/-- An instruction that raises emits nothing, and one whose emission faults leaves that event recorded. -/
theorem exec_events {i : Instr} {s t : State} (h : exec i s = .next t) :
    t.events = s.events ∨ ∃ e, t.events = s.events ++ [e] := by
  rcases exec_cases h with ⟨err, rfl⟩ | ⟨e, msg, rfl⟩ | hsucc
  · exact .inl rfl
  · exact .inr ⟨e, rfl⟩
  · exact hsucc.events

/-- Settles O22, by the cases of a step: only the implicit stop and an instruction emit. -/
theorem eventsAreNeverRetracted : Obligations.EventsAreNeverRetracted := by
  intro s t hstep
  rcases step_cases hstep with ⟨-, rfl⟩ | ⟨-, ⟨-, rfl⟩ | ⟨line, err, -, -, rfl⟩ | ⟨line, i, -, -, hexec⟩⟩
  · exact .inl rfl
  · exact implicitStop_events s
  · exact .inl rfl
  · exact exec_events hexec

/-! #### The two print instructions (R251, R252) -/

/-- The whole next state of an instruction that does nothing but emit, for each answer of the sink: the sequencer's work
on `ok`, an abort with IO on a fault, and in either case the event recorded and the answer used up. -/
theorem emission_outcomes {s : State} {e : Event} {r : Result} (hr : r = .next (s.emitThenRetire s e)) :
    (s.nextAnswer = .ok → r = .next { s.advanced with events := s.events ++ [e], answers := s.answers.tail }) ∧
    (∀ msg, s.nextAnswer = .ioFault msg → r = .next { s with
      run := .stopped, err := some (.execute (.io msg)), events := s.events ++ [e], answers := s.answers.tail }) := by
  refine ⟨fun hanswer => ?ok, fun msg hanswer => ?fault⟩
  case ok =>
    rw [hr, emitThenRetire_of_ok hanswer]
    rfl
  case fault =>
    rw [hr, emitThenRetire_of_ioFault hanswer]
    rfl

theorem exec_printRegister (r : Reg) (s : State) :
    exec (.printRegister r) s = .next (s.emitThenRetire s (.printRegister r.index.val (s.reg r))) := rfl

theorem exec_printStack (src : Operand) (s : State) :
    exec (.target .printStack src) s = .next (s.emitThenRetire s
      (.printStack (BitVec.ofNat 64 (s.operandValue src .word)) (s.reg .sp) s.stackView)) := by
  rw [exec_target, ← resolve_word]
  rfl

/-- Settles O60: the view handed over is `State.stackView`, whose limit is the smaller of pointer and capacity. -/
theorem printStackResult : Obligations.PrintStackResult := by
  intro src s
  refine ⟨s.stackView, fun a => ?view, emission_outcomes (exec_printStack src s)⟩
  case view => simp only [stackView_read, lt_min_iff]

/-- Settles O59. -/
theorem printRegisterResult : Obligations.PrintRegisterResult := fun r s =>
  emission_outcomes (exec_printRegister r s)

end Sys2Proof.Machine

namespace Sys2Proof.Machine
/-! ### Exceptions family: errors are precise (60_exceptions.md R262, R273) -/

/-- An instruction that latches an error takes it from the state before its writes, with at most the event whose emission
faulted recorded there. -/
theorem failure_cases {i : Instr} {s t : State} (h : exec i s = .next t) (hserr : s.err = none) (hterr : t.err ≠ none) :
    (∃ e, t = s.abort (.execute e)) ∨ ∃ ev msg, t = (s.record ev).abort (.execute (.io msg)) := by
  rcases exec_cases h with hraised | hfaulted | hsucc
  · exact .inl hraised
  · exact .inr hfaulted
  · exact absurd (hsucc.err.trans hserr) hterr

/-- Settles O24: `State.abort` writes `run` and `err` alone, and `State.record` the events and the answers alone. -/
theorem failedInstructionChangesNothingElse : Obligations.FailedInstructionChangesNothingElse := by
  intro i s t hserr h hterr
  rcases failure_cases h hserr hterr with ⟨e, rfl⟩ | ⟨ev, msg, rfl⟩
  · exact .inl rfl
  · exact .inr ⟨ev, msg, rfl⟩

end Sys2Proof.Machine

namespace Sys2Proof.Machine
/-! ### Reset and hazards family: the configuration is constant (70_reset_and_hazards.md R302, 20_memory.md R73) -/

theorem implicitStop_config (s : State) : s.implicitStop.config = s.config := by
  rcases implicitStop_cases s with h | h | ⟨msg, h⟩ <;> rw [h] <;> rfl

/-- Neither an abort nor a recorded event touches the configuration, so failing or succeeding an instruction keeps it. -/
theorem exec_config {i : Instr} {s t : State} (h : exec i s = .next t) : t.config = s.config := by
  rcases exec_cases h with ⟨e, rfl⟩ | ⟨ev, msg, rfl⟩ | hsucc
  · exact abort_config s _
  · exact (abort_config _ _).trans (record_config s ev)
  · exact hsucc.config

theorem step_config {s t : State} (h : step s = .next t) : t.config = s.config := by
  rcases step_cases h with ⟨-, rfl⟩ | ⟨-, ⟨-, rfl⟩ | ⟨line, e, -, -, rfl⟩ | ⟨line, i, -, -, hexec⟩⟩
  · rfl
  · exact implicitStop_config s
  · exact abort_config s _
  · exact exec_config hexec

/-- Settles O21: having the starting state's configuration is kept by every step, so by every run. -/
theorem configurationIsConstant : Obligations.ConfigurationIsConstant := by
  intro k s t hrun
  have hkept : ∀ u v : State, u.config = s.config → step u = .next v → v.config = s.config :=
    fun u v hu hstep => (step_config hstep).trans hu
  exact run_preserves (M := Sys2Proof.core) hkept rfl hrun

end Sys2Proof.Machine
